-- ==== Sys2Proof/Word.lean ====
section
/-! DEFINITION. The byte, the machine's one width: a register, a memory cell, an opcode and an operand
are each 8 bits (spec 00_scope.md R4, 20_memory.md R33). -/

namespace Sys2Proof

/-- An unsigned number 0 to 255, bit 7 most significant (00_scope.md section 4.1). -/
abbrev Byte := BitVec 8

end Sys2Proof
end

