-- ==== Sys2Proof/Config.lean ====
section
/-! DEFINITION. The parameters of the hardware (spec 00_scope.md R4). The spec fixes all but one, and the model writes
them as numerals: `NUM_REGS` 8, `SP_INDEX` 7, `MEM_SIZE` 256, `REG_WIDTH`, `CELL_WIDTH` and `OPCODE_WIDTH` 8
(the type `Byte`), `MAX_OPERANDS` 2. `SP_INIT` is open: every definition that needs it takes it as an argument, and
`Config.spInit` is the one value `State.reset` is given. -/

namespace Sys2Proof

/-- The `SP_INIT` of `State.reset`. PRESUMED, unsafe, log entry 1: the spec leaves `SP_INIT` OPEN (00_scope.md
R4, decision D3); 0xF4 is the family's value that 93_implementation_defined.md G1 records. No statement of the
package rests on it: each speaks of every `SP_INIT`. -/
def Config.spInit : Byte := 0xF4

end Sys2Proof
end

