-- ==== Sys2Proof/Machine/State.lean ====
section
/-! DEFINITION. The architectural state of the machine (spec 10_state.md), its value after reset, and the
reasons a step can stop. -/

namespace Sys2Proof.Machine

/-- An operation name given to the ALU, left open as 60_exceptions.md R134 allows. Its known set is ADD and MUL
(43_alu_mul.md R105, R107, decision D12). DESIGN CHOICE (log entry 8): how a name is represented is not given
(91_not_in_source.md N20); the model names the two known operations by constructors, and `other` is any name outside the
known set, whatever its text, so `other "MUL"` too is unknown. Safe. -/
inductive AluOperation where
  | add
  | mul
  | other (name : String)
  deriving DecidableEq, Repr

/-- The four fault causes, each with the `info` the spec records for it (60_exceptions.md R130). -/
inductive FaultCause where
  /-- The offending address, not reduced (R131). -/
  | memoryAccessOutOfRange (addr : Nat)
  /-- The opcode byte (R132). -/
  | unsupportedInstruction (ir : Byte)
  /-- The offending operand byte (R133). -/
  | registerIndexOutOfRange (i : Byte)
  /-- The operation name; no program can raise it (R134). -/
  | unsupportedALUOperation (op : AluOperation)
  deriving DecidableEq, Repr

/-- The run state (10_state.md R20): RUNNING, and the two terminal values HALTED and FAULTED(cause, info). -/
inductive RunState where
  | running
  | halted
  | faulted (c : FaultCause)
  deriving DecidableEq, Repr

/-- What the core hands to the console output sink (10_state.md R22). -/
inductive OutputEvent where
  | print (v : Byte)
  | haltNotice
  deriving DecidableEq, Repr

/-- Memory as the list of its cells that do not hold their reset value, in rising order of address (log entry 4). -/
abbrev Memory := List Host.Cell

/-- The complete architectural state (10_state.md R10: "There is no other state"). -/
structure State where
  /-- Program counter, 0 to 256 (R17); a natural number, as in R10 (log entry 2). -/
  pc : Nat
  /-- Run state (R20). -/
  run : RunState
  /-- Register file; `x[7]` is SP (R12, R16). -/
  x : Vector Byte 8
  /-- Memory cells 0 to 255 (R21). -/
  mem : Memory
  /-- Output stream, oldest event first (R22). -/
  out : List OutputEvent
  deriving DecidableEq, Repr

/-- Why the machine has no step (40_engine.md R70, decision D17). Raised by `step` alone, never by an
instruction. Safe: the spec too gives these states no step. A `raise` of the spec is no `Fault`: it is the
next state that holds `run = FAULTED(cause, info)` (log entry 3). -/
inductive Fault where
  /-- The run has ended by HLT. -/
  | halted
  /-- The run has ended by a fatal error. -/
  | faulted (c : FaultCause)
  deriving DecidableEq, Repr

/-- Why the model gives no meaning. -/
inductive Refusal where
  /-- An instruction without a meaning in `exec`; safe. No arm answers it: every instruction is modelled. -/
  | notModelled (mnemonic : String)
  deriving DecidableEq, Repr

/-- The state after reset with the parameter `SP_INIT` (10_state.md R25, 70_reset_and_hazards.md R160): nothing
of an earlier state is an argument, for nothing survives a reset. -/
def State.resetWith (spInit : Byte) : State where
  pc := 0
  run := .running
  x := #v[0, 0, 0, 0, 0, 0, 0, spInit]
  mem := []
  out := []

/-- The state after reset at the `SP_INIT` of `Config.spInit` (log entry 1). -/
def State.reset : State := State.resetWith Config.spInit

end Sys2Proof.Machine
end

