-- ==== Sys2Proof/Machine/Ops.lean ====
section
/-! DEFINITION. The named operations over memory, registers, the program counter, the output stream and the run
state: the pseudocode primitives of spec 00_scope.md section 4.2. Values are natural numbers narrowed where they are
stored. A primitive that can raise answers `Except FaultCause`; `commit` ends a handler and `raise` takes the fault. -/

namespace Sys2Proof.Machine

/-! ### Memory cells -/

/-- What a cell that is not listed holds: the reset value, "memory zeroed" (10_state.md R25, R26). -/
def Memory.unlisted : Byte := 0

/-- The byte in cell `a`. -/
def Memory.byteAt : Memory → Nat → Byte
  | [], _ => Memory.unlisted
  | c :: m, a => if c.1 = a then c.2 else Memory.byteAt m a

/-- Put a cell before the first one of a higher address. -/
def Memory.insertCell : Memory → Host.Cell → Memory
  | [], d => [d]
  | c :: m, d => if d.1 < c.1 then d :: c :: m else c :: Memory.insertCell m d

/-- Cell `a` no longer listed. -/
def Memory.eraseCell (m : Memory) (a : Nat) : Memory := m.filter (fun c => c.1 ≠ a)

/-- Cell `a` holds `v`, every other cell as before (20_memory.md R37). -/
def Memory.store (m : Memory) (a : Nat) (v : Byte) : Memory :=
  if v = Memory.unlisted then Memory.eraseCell m a
  else Memory.insertCell (Memory.eraseCell m a) (a, v)

/-- The canonical form: addresses strictly rising, all of them below `MEM_SIZE`, no cell listed that holds the
reset value (log entry 4). -/
abbrev Memory.wf (m : Memory) : Prop :=
  m.Pairwise (fun c d => c.1 < d.1) ∧ ∀ c ∈ m, c.1 < 256 ∧ c.2 ≠ Memory.unlisted

/-! ### Primitives that can raise -/

/-- `MemRead(addr, 1)` of a memory alone, as the `memory_array` answers it (20_memory.md R31, 40_engine.md R83). -/
def Memory.read (addr : Nat) (m : Memory) : Except FaultCause Byte :=
  if addr ≥ 256 then .error (.memoryAccessOutOfRange addr)
  else .ok (m.byteAt addr)

/-- `MemRead(addr, 1)` in the state's memory (20_memory.md R31). -/
def memRead (addr : Nat) (s : State) : Except FaultCause Byte := s.mem.read addr

/-- `MemWrite(addr, 1, v)`: stores `v mod 256` (20_memory.md R32, decision D11). -/
def memWrite (addr v : Nat) (s : State) : Except FaultCause State :=
  if addr ≥ 256 then .error (.memoryAccessOutOfRange addr)
  else .ok { s with mem := s.mem.store addr (BitVec.ofNat 8 v) }

/-- `RegRead(i)`: the index is the whole operand byte, checked and never masked (10_state.md R13, decision D7). -/
def regRead (i : Byte) (s : State) : Except FaultCause Byte :=
  if h : i.toNat < 8 then .ok s.x[i.toNat]
  else .error (.registerIndexOutOfRange i)

/-- `RegWrite(i, v)`: stores `v mod 256` (10_state.md R13, R14). -/
def regWrite (i : Byte) (v : Nat) (s : State) : Except FaultCause State :=
  if h : i.toNat < 8 then .ok { s with x := s.x.set i.toNat (BitVec.ofNat 8 v) h }
  else .error (.registerIndexOutOfRange i)

/-! ### Primitives that cannot raise -/

/-- `SP`: register 7, read directly (10_state.md R16). -/
def spRead (s : State) : Byte := s.x[7]

/-- `SP <- v`: register 7, written directly with an 8-bit value (10_state.md R16). -/
def spWrite (v : Byte) (s : State) : State := { s with x := s.x.set 7 v }

/-- `SP <- (SP - 1) mod 256` (44_stack_push_pop.md R116, R118, decision D9). -/
def spDecrement (s : State) : State := spWrite (spRead s - 1) s

/-- `SP <- (SP + 1) mod 256` (44_stack_push_pop.md R117, R118, decision D9). -/
def spIncrement (s : State) : State := spWrite (spRead s + 1) s

/-- `pc <- pc + n`, without wrap (10_state.md R18). -/
def advancePc (n : Nat) (s : State) : State := { s with pc := s.pc + n }

/-- `emit e` (10_state.md R22). -/
def emit (e : OutputEvent) (s : State) : State := { s with out := s.out ++ [e] }

/-- `signal halt`, with the transition the engine makes on it in the same step (40_engine.md R78). -/
def signalHalt (s : State) : State := { s with run := .halted }

/-! ### Taking a fault -/

/-- `raise C(info)`, taken in the state the step began in: `run` becomes FAULTED(cause, info) and nothing else
changes, the pc included (60_exceptions.md R137, 40_engine.md R79, decision D5). There is no return from it (R138). -/
def raise (c : FaultCause) (s : State) : Host.Outcome State Fault Refusal := .next { s with run := .faulted c }

/-- The end of a handler begun in `s`: all its effects, or on a raise none of them (40_engine.md R80). -/
def commit (s : State) : Except FaultCause State → Host.Outcome State Fault Refusal
  | .ok t => .next t
  | .error c => raise c s

/-- The number the spec gives a cause for interface use (60_exceptions.md R130, decision D15). -/
def FaultCause.code : FaultCause → Nat
  | .memoryAccessOutOfRange _ => 1
  | .unsupportedInstruction _ => 2
  | .registerIndexOutOfRange _ => 3
  | .unsupportedALUOperation _ => 4

end Sys2Proof.Machine
end

