-- ==== Sys2Proof/Machine/Halt.lean ====
section
/-! DEFINITION. HLT (spec 42_hlt.md). -/

namespace Sys2Proof.Machine

/-- HLT (42_hlt.md R100): notice, pc, halt signal, all in the one step (decision D21). -/
def execHlt (s : State) : Host.Outcome State Fault Refusal :=
  commit s (.ok (signalHalt (advancePc 1 (emit .haltNotice s))))

end Sys2Proof.Machine
end

