-- ==== Sys2Proof/Machine/Operands.lean ====
section
/-! DEFINITION. The operand forms (spec 30_encoding.md R53, 10_state.md R16). A register operand is the index byte
itself, which `regRead` and `regWrite` check; the two other forms are below. -/

namespace Sys2Proof.Machine

/-- An immediate operand: the byte as an unsigned number, no extension (30_encoding.md R53). -/
def immediate (b : Byte) : Nat := b.toNat

/-- A register-index operand that a handler checks before its first write (44_stack_push_pop.md R116, R117). -/
def checkReg (i : Byte) : Except FaultCause Unit :=
  if i.toNat < 8 then .ok () else .error (.registerIndexOutOfRange i)

/-- The implicit stack operand: the address in SP, `zext(SP)` (44_stack_push_pop.md R116, R117). -/
def stackAddr (s : State) : Nat := (spRead s).toNat

/-- The address PUSH stores at: SP after the decrement (20_memory.md R34). -/
def pushAddr (s : State) : Nat := stackAddr (spDecrement s)

end Sys2Proof.Machine
end

