-- ==== Sys2Proof/Machine/LoadPrint.lean ====
section
/-! DEFINITION. LDI and PRN (spec 41_ldi_prn.md). -/

namespace Sys2Proof.Machine

/-- LDI `a`, `b` (41_ldi_prn.md R90). -/
def execLdi (a b : Byte) (s : State) : Host.Outcome State Fault Refusal :=
  commit s do
    let t ← regWrite a (immediate b) s
    return advancePc 3 t

/-- PRN `a` (41_ldi_prn.md R91). -/
def execPrn (a : Byte) (s : State) : Host.Outcome State Fault Refusal :=
  commit s do
    let v ← regRead a s
    return advancePc 2 (emit (.print v) s)

end Sys2Proof.Machine
end

