-- ==== Sys2Proof/Machine/Alu.lean ====
section
/-! DEFINITION. The ALU (spec 43_alu_mul.md R105 to R108). The machine computes no flag (10_state.md R23). -/

namespace Sys2Proof.Machine

/-- `AluOp(op, va, vb)` as an exact natural number; `none` outside the known set (43_alu_mul.md R105 to R107). -/
def aluOp : AluOperation → Option (Nat → Nat → Nat)
  | .mul => some (fun va vb => va * vb)
  | .add => some (fun va vb => va + vb)
  | .other _ => none

/-- `Alu(op, a, b)`: operation name first, then register `a`, then register `b`; both are read before `x[a]` is
written with the result mod 256 (43_alu_mul.md R105, decision D6). -/
def alu (op : AluOperation) (a b : Byte) (s : State) : Except FaultCause State :=
  match aluOp op with
  | none => .error (.unsupportedALUOperation op)
  | some f => do
    let va ← regRead a s
    let vb ← regRead b s
    regWrite a (f va.toNat vb.toNat) s

end Sys2Proof.Machine
end

