-- ==== Sys2Proof/Machine/Multiply.lean ====
section
/-! DEFINITION. MUL (spec 43_alu_mul.md). -/

namespace Sys2Proof.Machine

/-- MUL `a`, `b` (43_alu_mul.md R109). -/
def execMul (a b : Byte) (s : State) : Host.Outcome State Fault Refusal :=
  commit s do
    let t ← alu .mul a b s
    return advancePc 3 t

end Sys2Proof.Machine
end

