-- ==== Sys2Proof/Machine/Stack.lean ====
section
/-! DEFINITION. PUSH and POP (spec 44_stack_push_pop.md). -/

namespace Sys2Proof.Machine

/-- PUSH `a` (44_stack_push_pop.md R116): the index check comes before any write, and the source register is read
after the decrement (decision D10). -/
def execPush (a : Byte) (s : State) : Host.Outcome State Fault Refusal :=
  commit s do
    checkReg a
    let t := spDecrement s
    let v ← regRead a t
    let u ← memWrite (stackAddr t) v.toNat t
    return advancePc 2 u

/-- POP `a` (44_stack_push_pop.md R117): the increment applies to register 7 as it is after the load (decision D10). -/
def execPop (a : Byte) (s : State) : Host.Outcome State Fault Refusal :=
  commit s do
    checkReg a
    let v ← memRead (stackAddr s) s
    let t ← regWrite a v.toNat s
    return advancePc 2 (spIncrement t)

end Sys2Proof.Machine
end

