-- ==== Sys2Proof/Syntax.lean ====
section
/-! DEFINITION. The six instructions (spec 30_encoding.md R54). An operand is the whole operand byte,
unsigned and unmasked (R53, R60): register indices 8 to 255 are instructions too, and fault when they run. -/

namespace Sys2Proof

/-- The complete catalog of 30_encoding.md R54, in the table's order; `a` is the first operand byte, `b` the second. -/
inductive Instr where
  | ldi (a b : Byte)    -- x[a] <- b
  | prn (a : Byte)      -- print x[a]
  | hlt                 -- halt
  | mul (a b : Byte)    -- x[a] <- x[a] * x[b]
  | push (a : Byte)     -- push x[a]
  | pop (a : Byte)      -- pop into x[a]
  deriving DecidableEq, Repr

end Sys2Proof
end

