-- ==== Sys2Proof/Decode.lean ====
section
/-! DEFINITION. The opcode table, the dispatch table, the decoder over bytes and the encoder (spec
30_encoding.md R50 to R60, 40_engine.md R73 to R76). -/

namespace Sys2Proof

/-- The handlers the dispatch table names, one per instruction (40_engine.md R75). -/
inductive Handler where
  | ldi | prn | hlt | mul | push | pop
  deriving DecidableEq, Repr

/-- `cnt = ir[7:6] = ir >> 6`, from the opcode byte alone (40_engine.md R73). -/
def operandCount (ir : Byte) : Nat := (ir >>> 6).toNat

/-- The dispatch table, keyed by the whole opcode byte (40_engine.md R75, 30_encoding.md R51). -/
def dispatch (ir : Byte) : Option Handler :=
  if ir = 0b10000010 then some .ldi
  else if ir = 0b01000111 then some .prn
  else if ir = 0b00000001 then some .hlt
  else if ir = 0b10100010 then some .mul
  else if ir = 0b01000101 then some .push
  else if ir = 0b01000110 then some .pop
  else none

/-- The opcode table: the encoding of each instruction's name (10_state.md R11, 30_encoding.md R54). -/
def opcode : Handler → Byte
  | .ldi => 0x82
  | .prn => 0x47
  | .hlt => 0x01
  | .mul => 0xA2
  | .push => 0x45
  | .pop => 0x46

/-- The handler with exactly its operands, first operand first (40_engine.md R76, 30_encoding.md R52).
`none` where the number of operands is not the handler's, which no opcode of the table brings about (R56). -/
def Handler.apply : Handler → List Byte → Option Instr
  | .ldi, [a, b] => some (.ldi a b)
  | .prn, [a] => some (.prn a)
  | .hlt, [] => some .hlt
  | .mul, [a, b] => some (.mul a b)
  | .push, [a] => some (.push a)
  | .pop, [a] => some (.pop a)
  | _, _ => none

/-- Dispatch lookup, then the handler with the fetched operands (actions 4 and 5 of 40_engine.md R71). -/
def lookup (ir : Byte) (operands : List Byte) : Option Instr :=
  match dispatch ir with
  | none => none
  | some h => h.apply operands

/-- Why bytes do not decode. -/
inductive DecodeError where
  /-- The bytes end before byte `k` of the instruction (byte 0 is the opcode). -/
  | missing (k : Nat)
  /-- No instruction has this opcode byte (30_encoding.md R57, R58). -/
  | unsupported (ir : Byte)
  deriving DecidableEq, Repr

/-- The instruction at the front of a list of bytes, and the bytes after it. Total. The checks come in the
engine's order (40_engine.md R71): opcode byte, count 3, operand bytes, lookup. -/
def decode : List Byte → Except DecodeError (Instr × List Byte)
  | [] => .error (.missing 0)
  | ir :: rest =>
    if operandCount ir = 3 then .error (.unsupported ir)
    else if rest.length < operandCount ir then .error (.missing (rest.length + 1))
    else
      match lookup ir (rest.take (operandCount ir)) with
      | none => .error (.unsupported ir)
      | some i => .ok (i, rest.drop (operandCount ir))

/-- Byte `k` of an instruction whose bits are `w` in the numbering of spec/opcode_table.json: byte 0, the
opcode, is bits 7..0, the byte after it bits 15..8, and so on (20_memory.md R35). -/
def tableByte (w k : Nat) : Byte := BitVec.ofNat 8 (w >>> (8 * k))

/-- The three bytes of the longest instruction, bits at and above `nbits` zero. -/
def tableBytes (nbits w : Nat) : List Byte :=
  [tableByte (w % 2 ^ nbits) 0, tableByte (w % 2 ^ nbits) 1, tableByte (w % 2 ^ nbits) 2]

/-- What `decode` reads from an instruction given as one number. -/
def decodeTableWord (nbits w : Nat) : Option Instr :=
  match decode (tableBytes nbits w) with
  | .ok (i, _) => some i
  | .error _ => none

/-- The instruction's handler. -/
def Instr.handler : Instr → Handler
  | .ldi _ _ => .ldi
  | .prn _ => .prn
  | .hlt => .hlt
  | .mul _ _ => .mul
  | .push _ => .push
  | .pop _ => .pop

/-- The operand bytes, first operand first (30_encoding.md R52, R53). -/
def Instr.operands : Instr → List Byte
  | .ldi a b => [a, b]
  | .prn a => [a]
  | .hlt => []
  | .mul a b => [a, b]
  | .push a => [a]
  | .pop a => [a]

/-- The bytes of an instruction: opcode byte, then operand bytes (30_encoding.md R50, R52, R54). -/
def encode (i : Instr) : List Byte := opcode i.handler :: i.operands

end Sys2Proof
end

