-- ==== Sys2Proof/Machine/Engine.lean ====
section
/-! DEFINITION. The engine's part of a step before the handler: which states have a step (spec 40_engine.md R70),
and actions 1 to 4 of R71 (opcode fetch, count, operand fetch, dispatch lookup). -/

namespace Sys2Proof.Machine

/-- Why there is no step, if there is none: HALTED and FAULTED are terminal (40_engine.md R70, decision D17). -/
def noStep (s : State) : Option Fault :=
  match s.run with
  | .running => none
  | .halted => some .halted
  | .faulted c => some (.faulted c)

/-- What the fetch unit hands on: `(ir, cnt, a?, b?)`, an operand absent where the count does not ask for it
(40_engine.md R83). -/
structure Fetched where
  ir : Byte
  cnt : Nat
  a : Option Byte
  b : Option Byte
  deriving DecidableEq, Repr

/-- One operand byte, read only where the count asks for it (40_engine.md R74). -/
def fetchOperand (wanted : Bool) (addr : Nat) (mem : Memory) : Except FaultCause (Option Byte) :=
  if wanted then (mem.read addr).map some else .ok none

/-- The `Fetch` transaction of 40_engine.md R83, from `pc` and `mem` alone: actions 1 to 3 of R71. Opcode fetch (R72),
count (R73), count 3 refused with no operand fetch, then `a` at `pc + 1` before `b` at `pc + 2` (R74). -/
def fetch (pc : Nat) (mem : Memory) : Except FaultCause Fetched := do
  let ir ← mem.read pc
  if operandCount ir = 3 then .error (.unsupportedInstruction ir)
  else
    let a ← fetchOperand (decide (1 ≤ operandCount ir)) (pc + 1) mem
    let b ← fetchOperand (decide (operandCount ir = 2)) (pc + 2) mem
    return { ir := ir, cnt := operandCount ir, a := a, b := b }

/-- The operand bytes that were fetched, `a` before `b`. -/
def operandsOf (f : Fetched) : List Byte := f.a.toList ++ f.b.toList

/-- Action 4 of 40_engine.md R71: `Dispatch(ir)`, whose `none` raises (R75); the handler it names is given exactly the
fetched operands (R76). -/
def dispatchFetched (f : Fetched) : Except FaultCause Instr :=
  match lookup f.ir (operandsOf f) with
  | none => .error (.unsupportedInstruction f.ir)
  | some i => .ok i

/-- Actions 1 to 4 of 40_engine.md R71, in that order, which decides the fault reported (60_exceptions.md R136). -/
def fetchInstr (s : State) : Except FaultCause Instr := do
  let f ← fetch s.pc s.mem
  dispatchFetched f

end Sys2Proof.Machine
end

