-- ==== Sys2Proof/Machine/Load.lean ====
section
/-! DEFINITION. The program load, as the memory image it leaves (spec 70_reset_and_hazards.md R161 to R163). -/

namespace Sys2Proof.Machine

/-- Bytes written sequentially from `addr` (70_reset_and_hazards.md R162). -/
def Memory.storeBytes : Memory → Nat → List Byte → Memory
  | m, _, [] => m
  | m, addr, b :: bs => Memory.storeBytes (m.store addr b) (addr + 1) bs

/-- Reset, then load: the state at the first step. A program of more than 256 bytes is refused and no run takes
place (70_reset_and_hazards.md R162, R163, decision D14). -/
def launch (spInit : Byte) (program : List Byte) : Option State :=
  if program.length > 256 then none
  else some { State.resetWith spInit with mem := Memory.storeBytes (State.resetWith spInit).mem 0 program }

/-- The bytes written at `s.pc`, `s.pc + 1`, … as far as memory goes, all else unchanged. -/
def placeAtPc (bytes : List Byte) (s : State) : State :=
  { s with mem := Memory.storeBytes s.mem s.pc (bytes.take (256 - s.pc)) }

end Sys2Proof.Machine
end

