-- ==== Sys2Proof/Machine/Step.lean ====
section
/-! DEFINITION. The step (spec 40_engine.md R70, R71). -/

namespace Sys2Proof.Machine

/-- One iteration of the engine's loop: no step unless RUNNING (40_engine.md R70), then actions 1 to 4, then the
handler, whose meaning includes its pc advance and, for HLT, action 6 (R71). -/
def step (s : State) : Host.Outcome State Fault Refusal :=
  match noStep s with
  | some f => .fault f
  | none =>
    match fetchInstr s with
    | .error c => raise c s
    | .ok i => exec i s

/-- `s` with the instruction whose bits are `w` at the program counter, where `step` fetches (log entry 5). -/
def State.withFetchWord (s : State) (nbits w : Nat) : State := placeAtPc (tableBytes nbits w) s

end Sys2Proof.Machine
end

