-- ==== Sys2Proof/Safety.lean ====
section
/-! DEFINITION. What counts as a safe and as a completed run (spec 60_exceptions.md R144), the invariant of the
machine, and the short names the statements use. -/

namespace Sys2Proof

open Sys2Proof.Machine

/-- The safety predicate: `run` is not FAULTED (60_exceptions.md R144). -/
abbrev Safe (s : State) : Prop := ∀ c, s.run ≠ .faulted c

/-- The completion predicate: `run = HALTED` (60_exceptions.md R144). -/
abbrev Completed (s : State) : Prop := s.run = .halted

/-- The byte at the program counter: the opcode of the next step (40_engine.md R72). -/
abbrev opcodeAt (s : State) : Byte := s.mem.byteAt s.pc

/-- The bytes from the program counter to the top of memory, which is all a fetch can read. -/
def codeBytes (s : State) : List Byte := (List.range (256 - s.pc)).map (fun k => s.mem.byteAt (s.pc + k))

/-- A recorded fault is one that a step could have raised with the pc and memory of `s`: the only address out of
range is 256 (20_memory.md R44), an unsupported opcode stands at the pc and has no dispatch entry (60_exceptions.md
R132, R137), a bad index is 8 or more (R133), and the ALU's fault never occurs (R134). -/
def CauseOk (s : State) : FaultCause → Prop
  | .memoryAccessOutOfRange addr => addr = 256
  | .unsupportedInstruction ir => opcodeAt s = ir ∧ dispatch ir = none
  | .registerIndexOutOfRange i => 8 ≤ i.toNat
  | .unsupportedALUOperation _ => False

/-- The invariant of the machine. -/
structure StateInv (s : State) : Prop where
  /-- Memory is in its canonical form (log entry 4). -/
  mem_wf : s.mem.wf
  /-- 256 is the largest value the pc holds (10_state.md R18). -/
  pc_le : s.pc ≤ 256
  /-- The stop notice has been given exactly when the run is HALTED (40_engine.md R78, 42_hlt.md R100). -/
  notice_iff : OutputEvent.haltNotice ∈ s.out ↔ s.run = .halted
  /-- A recorded fault fits the state. -/
  cause_ok : ∀ c, s.run = .faulted c → CauseOk s c

/-- Whether a handler reads or writes register `r`, by the table of 10_state.md R15. -/
def uses : Instr → Nat → Bool
  | .ldi a _, r => r == a.toNat
  | .prn a, r => r == a.toNat
  | .hlt, _ => false
  | .mul a b, r => r == a.toNat || r == b.toNat
  | .push a, r => r == 7 || r == a.toNat
  | .pop a, r => r == 7 || r == a.toNat

/-- Instructions executed one after another, with no fetch, stopping at the first outcome that is no next state. -/
def execAll : List Instr → State → Host.Outcome State Fault Refusal
  | [], s => .next s
  | i :: is, s =>
    match exec i s with
    | .next t => execAll is t
    | .fault f => .fault f
    | .refused r => .refused r

end Sys2Proof
end

