-- ==== Sys2Proof/WellFormed.lean ====
section
/-! DEFINITION. Well-formed instructions: every register operand names a register that exists (spec
30_encoding.md R53, R61). Nothing else can be wrong with an instruction: an immediate is legal at all 256
values, and operands have no illegal value at decode time (R60). Decoding and the step accept ill-formed
instructions as well; running one faults (10_state.md R13). -/

namespace Sys2Proof

/-- The index byte names one of `x[0]` to `x[7]`. -/
def regOk (i : Byte) : Bool := decide (i.toNat < 8)

/-- Every register operand is in range, per the operand table of 30_encoding.md R53. -/
def Instr.wf : Instr → Bool
  | .ldi a _ => regOk a
  | .prn a => regOk a
  | .hlt => true
  | .mul a b => regOk a && regOk b
  | .push a => regOk a
  | .pop a => regOk a

/-- `Instr.wf` as a proposition. -/
abbrev Instr.WellFormed (i : Instr) : Prop := i.wf = true

end Sys2Proof
end

