-- ==== Sys2Proof/Certificates/Slice0/Obligations.lean ====
section
/-! DEFINITION. The statements for the provers. Each docstring names the rule of spec/ a statement formalises, or the
decision of spec/92_eei_decisions.md, or the log entry of the model, that it rests on. -/

section

open Sys2Proof Sys2Proof.Machine

/-! ### Encoding -/

/-- The decoder accepts exactly the encodings of the six instructions, operands at every value, and returns the bytes
after them (30_encoding.md R50, R52, R54, R57). -/
def Obligations.DecodeAcceptsExactlyTheEncodings : Prop :=
  ∀ (bs : List Byte) (i : Instr) (rest : List Byte), decode bs = .ok (i, rest) ↔ bs = encode i ++ rest

/-- The six rows of 30_encoding.md R54, each byte written out, at every operand; there is no seventh. -/
def Obligations.CatalogRowsDecode : Prop :=
  ∀ a b : Byte,
    decode [0b10000010, a, b] = .ok (.ldi a b, []) ∧
    decode [0b01000111, a] = .ok (.prn a, []) ∧
    decode [0b00000001] = .ok (.hlt, []) ∧
    decode [0b10100010, a, b] = .ok (.mul a b, []) ∧
    decode [0b01000101, a] = .ok (.push a, []) ∧
    decode [0b01000110, a] = .ok (.pop a, []) ∧
    ∀ ir : Byte, dispatch ir ≠ none → ir = 130 ∨ ir = 71 ∨ ir = 1 ∨ ir = 162 ∨ ir = 69 ∨ ir = 70

/-- The operand count is bits 7:6 of the opcode byte, `ir >> 6`, and the decoder lets it decide before the lookup:
with too few bytes for the count, it does not look at the rest of the opcode (40_engine.md R73). -/
def Obligations.OperandCountIsTopTwoBits : Prop :=
  ∀ ir : Byte,
    operandCount ir = (ir.extractLsb 7 6).toNat ∧ operandCount ir = ir.toNat / 64 ∧ operandCount ir ≤ 3 ∧
    (operandCount ir ≠ 3 → ∀ rest : List Byte, rest.length < operandCount ir →
      decode (ir :: rest) = .error (.missing (rest.length + 1)))

/-! ### Registers and memory -/

/-- Register access by an operand byte: an index of 8 or more raises and is never masked; otherwise a read gives the
register, and a write stores the value mod 256 there and changes nothing else (10_state.md section 2; the fault is
decision D7). -/
def Obligations.RegisterAccessIsBoundsChecked : Prop :=
  ∀ (i : Byte) (v : Nat) (s : State),
    (8 ≤ i.toNat → regRead i s = .error (.registerIndexOutOfRange i) ∧
      regWrite i v s = .error (.registerIndexOutOfRange i)) ∧
    (∀ h : i.toNat < 8, regRead i s = .ok s.x[i.toNat] ∧
      ∃ t, regWrite i v s = .ok t ∧ t.x[i.toNat].toNat = v % 256 ∧
        (∀ r (hr : r < 8), r ≠ i.toNat → t.x[r] = s.x[r]) ∧
        t.pc = s.pc ∧ t.run = s.run ∧ t.mem = s.mem ∧ t.out = s.out)

/-- MemRead: an address of 256 or more raises with the address unreduced; any other gives its cell (20_memory.md R31). -/
def Obligations.MemReadIsBoundsChecked : Prop :=
  ∀ (addr : Nat) (s : State),
    (256 ≤ addr → memRead addr s = .error (.memoryAccessOutOfRange addr)) ∧
    (addr < 256 → memRead addr s = .ok (s.mem.byteAt addr))

/-- MemWrite: an address of 256 or more raises; any other stores the value mod 256 in its cell alone, and memory keeps
its canonical form (20_memory.md section 1; the wrap is decision D11, the form is log entry 4). -/
def Obligations.MemWriteStoresOneCell : Prop :=
  ∀ (addr v : Nat) (s : State),
    (256 ≤ addr → memWrite addr v s = .error (.memoryAccessOutOfRange addr)) ∧
    (addr < 256 → ∃ t, memWrite addr v s = .ok t ∧ (t.mem.byteAt addr).toNat = v % 256 ∧
      (∀ b, b ≠ addr → t.mem.byteAt b = s.mem.byteAt b) ∧
      t.pc = s.pc ∧ t.run = s.run ∧ t.x = s.x ∧ t.out = s.out ∧ (s.mem.wf → t.mem.wf))

/-- Two canonical memories that read alike are the same data: a statement about the model's form of memory, log
entry 4. -/
def Obligations.CanonicalMemoryIsUnique : Prop :=
  ∀ m m' : Memory, m.wf → m'.wf → (∀ a, m.byteAt a = m'.byteAt a) → m = m'

/-! ### Reset and load -/

/-- Reset sets every component, for every SP_INIT (70_reset_and_hazards.md R160); the model's `State.reset` is this
state at one SP_INIT. -/
def Obligations.ResetSetsEveryComponent : Prop :=
  ∀ S : Byte,
    (State.resetWith S).pc = 0 ∧ (State.resetWith S).run = .running ∧
    (∀ r (hr : r < 8), r < 7 → (State.resetWith S).x[r] = 0) ∧ (State.resetWith S).x[7] = S ∧
    (∀ a, a < 256 → (State.resetWith S).mem.byteAt a = 0) ∧ (State.resetWith S).out = [] ∧
    ∃ S', State.reset = State.resetWith S'

/-- The state at the first step: the program's bytes from address 0, zeros above, all else as reset left it; the empty
program is allowed, and its first step faults (70_reset_and_hazards.md R162). -/
def Obligations.LoadLeavesTheProgramImage : Prop :=
  (∀ (S : Byte) (p : List Byte), p.length ≤ 256 → ∃ t, launch S p = some t ∧
    t.pc = 0 ∧ t.run = .running ∧ t.x = #v[0, 0, 0, 0, 0, 0, 0, S] ∧ t.out = [] ∧
    (∀ i (h : i < p.length), t.mem.byteAt i = p[i]) ∧
    (∀ i, p.length ≤ i → i ≤ 255 → t.mem.byteAt i = 0)) ∧
  (∀ S : Byte, ∃ t, launch S [] = some t ∧
    step t = .next { t with run := .faulted (.unsupportedInstruction 0x00) })

/-- A program is refused exactly when it has more than 256 bytes (70_reset_and_hazards.md section 2; decision D14). -/
def Obligations.LoadRefusesLongPrograms : Prop :=
  ∀ (S : Byte) (p : List Byte), launch S p = none ↔ 256 < p.length

/-! ### The ALU -/

/-- The ALU's contract: an unknown operation name raises first, then register `a`, then `b`; otherwise `x[a]` gets the
product or sum of the old values mod 256 and nothing else changes (43_alu_mul.md section 1; the order of checks is
decision D6, the fault of an index of 8 or more decision D7, the known set with ADD decision D12, the form of a name log
entry 8). -/
def Obligations.AluContract : Prop :=
  ∀ (a b : Byte) (s : State),
    (∀ n, alu (.other n) a b s = .error (.unsupportedALUOperation (.other n))) ∧
    (∀ op, op = .add ∨ op = .mul →
      (8 ≤ a.toNat → alu op a b s = .error (.registerIndexOutOfRange a)) ∧
      (a.toNat < 8 → 8 ≤ b.toNat → alu op a b s = .error (.registerIndexOutOfRange b)) ∧
      (∀ (ha : a.toNat < 8) (hb : b.toNat < 8), ∃ t, alu op a b s = .ok t ∧
        (op = .mul → t.x[a.toNat].toNat = s.x[a.toNat].toNat * s.x[b.toNat].toNat % 256) ∧
        (op = .add → t.x[a.toNat].toNat = (s.x[a.toNat].toNat + s.x[b.toNat].toNat) % 256) ∧
        (∀ r (hr : r < 8), r ≠ a.toNat → t.x[r] = s.x[r]) ∧
        t.pc = s.pc ∧ t.run = s.run ∧ t.mem = s.mem ∧ t.out = s.out))

/-! ### The six instructions: result, completion, where they trap, and how memory holds them -/

/-- LDI (41_ldi_prn.md, LDI). An index of 8 or more faults and is not masked (decision D7, log entry 7), with no partial
effect (decision D5); register 7 is a register like the others (decision D22). -/
def Obligations.LdiLoadsImmediate : Prop :=
  (∀ a b : Byte, encode (.ldi a b) = [0x82, a, b]) ∧
  (∀ (a b : Byte) (s : State) (h : a.toNat < 8),
    exec (.ldi a b) s = .next { s with x := s.x.set a.toNat b h, pc := s.pc + 3 }) ∧
  (∀ (a b : Byte) (s : State), 8 ≤ a.toNat →
    exec (.ldi a b) s = .next { s with run := .faulted (.registerIndexOutOfRange a) }) ∧
  (∀ s : State, s.run = .running → s.pc ≤ 255 → opcodeAt s = 0x82 →
    step s = if s.pc ≤ 253 then exec (.ldi (s.mem.byteAt (s.pc + 1)) (s.mem.byteAt (s.pc + 2))) s
      else .next { s with run := .faulted (.memoryAccessOutOfRange 256) })

/-- PRN (41_ldi_prn.md, PRN). An index of 8 or more faults and is not masked (decision D7, log entry 7), with no partial
effect (decision D5); register 7 is a register like the others (decision D22). -/
def Obligations.PrnPrintsRegister : Prop :=
  (∀ a : Byte, encode (.prn a) = [0x47, a]) ∧
  (∀ (a : Byte) (s : State) (h : a.toNat < 8),
    exec (.prn a) s = .next { s with out := s.out ++ [.print s.x[a.toNat]], pc := s.pc + 2 }) ∧
  (∀ (a : Byte) (s : State), 8 ≤ a.toNat →
    exec (.prn a) s = .next { s with run := .faulted (.registerIndexOutOfRange a) }) ∧
  (∀ s : State, s.run = .running → s.pc ≤ 255 → opcodeAt s = 0x47 →
    step s = if s.pc ≤ 254 then exec (.prn (s.mem.byteAt (s.pc + 1))) s
      else .next { s with run := .faulted (.memoryAccessOutOfRange 256) })

/-- HLT (42_hlt.md R100): it executes from any state, and from memory at any address, 255 included; it is the only way
to HALTED, and nothing follows it. -/
def Obligations.HltHalts : Prop :=
  encode .hlt = [0x01] ∧
  (∀ s : State, exec .hlt s = .next { s with out := s.out ++ [.haltNotice], pc := s.pc + 1, run := .halted }) ∧
  (∀ s : State, s.run = .running → s.pc ≤ 255 → opcodeAt s = 0x01 → step s = exec .hlt s) ∧
  (∀ s t : State, step s = .next t → t.run = .halted → opcodeAt s = 0x01) ∧
  (∀ s t u : State, exec .hlt s = .next t → step t ≠ .next u)

/-- MUL (43_alu_mul.md sections 1 and 2); the factors are the old values also where `a = b`. An index of 8 or more faults
and is not masked (decision D7), operand `a` is checked before `b` (decision D6), with no partial effect (decision D5);
register 7 is a register like the others (decision D22); log entry 7. -/
def Obligations.MulMultiplies : Prop :=
  (∀ a b : Byte, encode (.mul a b) = [0xA2, a, b]) ∧
  (∀ (a b : Byte) (s : State) (ha : a.toNat < 8) (hb : b.toNat < 8), ∃ t, exec (.mul a b) s = .next t ∧
    t.x[a.toNat].toNat = s.x[a.toNat].toNat * s.x[b.toNat].toNat % 256 ∧
    (∀ r (hr : r < 8), r ≠ a.toNat → t.x[r] = s.x[r]) ∧
    t.pc = s.pc + 3 ∧ t.run = s.run ∧ t.mem = s.mem ∧ t.out = s.out) ∧
  (∀ (a b : Byte) (s : State), 8 ≤ a.toNat →
    exec (.mul a b) s = .next { s with run := .faulted (.registerIndexOutOfRange a) }) ∧
  (∀ (a b : Byte) (s : State), a.toNat < 8 → 8 ≤ b.toNat →
    exec (.mul a b) s = .next { s with run := .faulted (.registerIndexOutOfRange b) }) ∧
  (∀ s : State, s.run = .running → s.pc ≤ 255 → opcodeAt s = 0xA2 →
    step s = if s.pc ≤ 253 then exec (.mul (s.mem.byteAt (s.pc + 1)) (s.mem.byteAt (s.pc + 2))) s
      else .next { s with run := .faulted (.memoryAccessOutOfRange 256) })

/-- PUSH (44_stack_push_pop.md section 2): SP goes down by one, 0 wrapping to 255 (decision D9), and the register,
read after the decrement (decision D10: for `a = 7` the new SP), is in the cell SP then names. An index of 8 or more
faults (decision D7) with no partial effect (decision D5). -/
def Obligations.PushStoresRegister : Prop :=
  (∀ a : Byte, encode (.push a) = [0x45, a]) ∧
  (∀ (a : Byte) (s : State) (h : a.toNat < 8), ∃ t, exec (.push a) s = .next t ∧
    t.x[7].toNat = (s.x[7].toNat + 255) % 256 ∧
    t.mem.byteAt t.x[7].toNat = (if a = 7 then t.x[7] else s.x[a.toNat]) ∧
    (∀ r (hr : r < 8), r ≠ 7 → t.x[r] = s.x[r]) ∧
    t.pc = s.pc + 2 ∧ t.run = s.run ∧ t.out = s.out) ∧
  (∀ (a : Byte) (s : State), 8 ≤ a.toNat →
    exec (.push a) s = .next { s with run := .faulted (.registerIndexOutOfRange a) }) ∧
  (∀ s : State, s.run = .running → s.pc ≤ 255 → opcodeAt s = 0x45 →
    step s = if s.pc ≤ 254 then exec (.push (s.mem.byteAt (s.pc + 1))) s
      else .next { s with run := .faulted (.memoryAccessOutOfRange 256) })

/-- POP (44_stack_push_pop.md section 3): the byte SP names goes to the register, then SP goes up by one, 255 wrapping
to 0 (decision D9); for `a = 7` the increment is of the loaded byte (decision D10). An index of 8 or more faults
(decision D7) with no partial effect (decision D5). -/
def Obligations.PopLoadsRegister : Prop :=
  (∀ a : Byte, encode (.pop a) = [0x46, a]) ∧
  (∀ (a : Byte) (s : State) (h : a.toNat < 8), ∃ t, exec (.pop a) s = .next t ∧
    (a ≠ 7 → t.x[a.toNat] = s.mem.byteAt s.x[7].toNat ∧ t.x[7].toNat = (s.x[7].toNat + 1) % 256) ∧
    (a = 7 → t.x[7].toNat = ((s.mem.byteAt s.x[7].toNat).toNat + 1) % 256) ∧
    t.pc = s.pc + 2 ∧ t.run = s.run ∧ t.out = s.out) ∧
  (∀ (a : Byte) (s : State), 8 ≤ a.toNat →
    exec (.pop a) s = .next { s with run := .faulted (.registerIndexOutOfRange a) }) ∧
  (∀ s : State, s.run = .running → s.pc ≤ 255 → opcodeAt s = 0x46 →
    step s = if s.pc ≤ 254 then exec (.pop (s.mem.byteAt (s.pc + 1))) s
      else .next { s with run := .faulted (.memoryAccessOutOfRange 256) })

/-- Every well-formed instruction completes from every state: no fault is recorded, and the pc moves past its bytes
(10_state.md section 4; HLT alone changes the run state). That no handler raises where the registers exist is read from
files 41 to 44 and 20_memory.md section 3. That PUSH at SP = 0 and POP at SP = 255 complete is decision D9 (log entry 7,
unsafe). Every state: a pc above 256 is log entry 2, a run state other than RUNNING log entry 3. -/
def Obligations.WellFormedInstructionsComplete : Prop :=
  ∀ (i : Instr) (s : State), i.WellFormed → ∃ t, exec i s = .next t ∧
    t.pc = s.pc + (encode i).length ∧ t.run = (if i = .hlt then .halted else s.run)

/-! ### Frames -/

/-- LDI and MUL change no register but the first operand's, no memory and no output; the run state changes only where
they trap, on an index of 8 or more (decision D7) with no partial effect (decision D5). -/
def Obligations.LdiMulFrame : Prop :=
  ∀ (i : Instr) (a b : Byte) (s t : State), i = .ldi a b ∨ i = .mul a b → exec i s = .next t →
    (∀ r (hr : r < 8), r ≠ a.toNat → t.x[r] = s.x[r]) ∧
    (∀ addr, t.mem.byteAt addr = s.mem.byteAt addr) ∧ t.out = s.out ∧
    (i.wf = true → t.run = s.run) ∧
    (i.wf = false → t.x = s.x ∧ t.pc = s.pc ∧ ∃ j, t.run = .faulted (.registerIndexOutOfRange j))

/-- PRN and HLT change no register and no memory, and keep every earlier output event; PRN changes the run state only
where it traps, on an index of 8 or more (decision D7) with no partial effect (decision D5), HLT to HALTED. -/
def Obligations.PrnHltFrame : Prop :=
  ∀ (i : Instr) (a : Byte) (s t : State), i = .prn a ∨ i = .hlt → exec i s = .next t →
    (∀ r (hr : r < 8), t.x[r] = s.x[r]) ∧
    (∀ addr, t.mem.byteAt addr = s.mem.byteAt addr) ∧ s.out <+: t.out ∧
    (i = .prn a → i.wf = true → t.run = s.run) ∧
    (i.wf = false → t.out = s.out ∧ t.pc = s.pc ∧ t.run = .faulted (.registerIndexOutOfRange a))

/-- PUSH changes no register but SP, no cell but the one at the decremented SP (which wraps, decision D9), and no output;
where it traps, on an index of 8 or more (decision D7), nothing but the run state (decision D5). -/
def Obligations.PushFrame : Prop :=
  ∀ (a : Byte) (s t : State), exec (.push a) s = .next t →
    (∀ r (hr : r < 8), r ≠ 7 → t.x[r] = s.x[r]) ∧
    (∀ addr, addr ≠ pushAddr s → t.mem.byteAt addr = s.mem.byteAt addr) ∧ t.out = s.out ∧
    (a.toNat < 8 → t.run = s.run) ∧
    (8 ≤ a.toNat → t.x = s.x ∧ t.mem = s.mem ∧ t.pc = s.pc ∧ t.run = .faulted (.registerIndexOutOfRange a))

/-- POP changes no register but its operand's and SP, no memory and no output; where it traps, on an index of 8 or more
(decision D7), nothing but the run state (decision D5). -/
def Obligations.PopFrame : Prop :=
  ∀ (a : Byte) (s t : State), exec (.pop a) s = .next t →
    (∀ r (hr : r < 8), r ≠ a.toNat → r ≠ 7 → t.x[r] = s.x[r]) ∧
    (∀ addr, t.mem.byteAt addr = s.mem.byteAt addr) ∧ t.out = s.out ∧
    (a.toNat < 8 → t.run = s.run) ∧
    (8 ≤ a.toNat → t.x = s.x ∧ t.pc = s.pc ∧ t.run = .faulted (.registerIndexOutOfRange a))

/-! ### Laws of the stack -/

/-- PUSH then POP of the same register, both fetched from memory, leaves every register as it was, `r7` and SP = 0
included, if the store misses the POP's two bytes; the byte below the stack holds what was pushed
(44_stack_push_pop.md section 4, law 1; decisions D9, D10). -/
def Obligations.PushThenPopRestoresRegisters : Prop :=
  ∀ (s : State) (n : Byte) (h : n.toNat < 8), s.run = .running → s.pc ≤ 252 →
    opcodeAt s = 0x45 → s.mem.byteAt (s.pc + 1) = n →
    s.mem.byteAt (s.pc + 2) = 0x46 → s.mem.byteAt (s.pc + 3) = n →
    pushAddr s ≠ s.pc + 2 → pushAddr s ≠ s.pc + 3 →
    ∃ t u, step s = .next t ∧ step t = .next u ∧
      u.x = s.x ∧ u.pc = s.pc + 4 ∧ u.run = .running ∧ u.out = s.out ∧
      u.mem.byteAt (pushAddr s) = (if n = 7 then s.x[7] - 1 else s.x[n.toNat]) ∧
      (∀ addr, addr ≠ pushAddr s → u.mem.byteAt addr = s.mem.byteAt addr)

/-- Registers pushed one after another come back in reverse order, and SP with them, for any number up to 256 of
pushes of registers other than `r7`, popped into any such registers. The instructions are executed without a fetch, so
no store can land on one of them (44_stack_push_pop.md section 4, law 2; decision D9). -/
def Obligations.PushedValuesPopInReverse : Prop :=
  ∀ (s : State) (sources targets : List Byte), sources.length = targets.length → sources.length ≤ 256 →
    (∀ r ∈ sources, r.toNat < 7) → (∀ r ∈ targets, r.toNat < 7) →
    ∀ k (hk : k < targets.length) (hs : k < sources.reverse.length), ∃ t,
      execAll (sources.map Instr.push ++ (targets.take (k + 1)).map Instr.pop) s = .next t ∧
      regRead targets[k] t = regRead sources.reverse[k] s ∧
      t.x[7].toNat = (s.x[7].toNat + 256 - sources.length + (k + 1)) % 256

/-! ### The engine -/

/-- When the bytes at the program counter decode to an instruction, well formed or not, the step of a RUNNING machine
is that instruction's execution: the engine adds nothing around it, the pc advance being the handler's
(40_engine.md R71, R76). -/
def Obligations.StepRunsDecodedInstruction : Prop :=
  ∀ (s : State) (i : Instr) (rest : List Byte), s.run = .running → decode (codeBytes s) = .ok (i, rest) →
    step s = exec i s

/-- Where the bytes at the program counter do not decode, the step faults as the decoder says: an opcode without an
instruction, or the first address beyond memory that was needed (40_engine.md R71 to R75; decisions D6, D8, and D5 for
no partial effect). -/
def Obligations.StepFaultsWhereDecodingFails : Prop :=
  ∀ s : State, s.run = .running →
    (∀ ir, decode (codeBytes s) = .error (.unsupported ir) →
      step s = .next { s with run := .faulted (.unsupportedInstruction ir) }) ∧
    (∀ k, decode (codeBytes s) = .error (.missing k) →
      step s = .next { s with run := .faulted (.memoryAccessOutOfRange (s.pc + k)) })

/-- There is a step exactly when RUNNING, from every RUNNING state whatever its pc and memory; HALTED and FAULTED have
none (40_engine.md section 1; decision D17). -/
def Obligations.HasStepExactlyWhenRunning : Prop :=
  ∀ s : State,
    ((∃ t, step s = .next t) ↔ s.run = .running) ∧
    (s.run = .halted → step s = .fault .halted) ∧
    (∀ c, s.run = .faulted c → step s = .fault (.faulted c))

/-- Opcode fetch: a pc of 256 faults with 256, and up to 255 the opcode is the byte there (40_engine.md section 2). That
a pc above 256 faults with itself is the model's choice of an unbounded pc (log entry 2, DESIGN CHOICE): the spec's pc
ends at 256. -/
def Obligations.OpcodeFetchAtPc : Prop :=
  (∀ s : State, s.run = .running → s.pc = 256 →
    step s = .next { s with run := .faulted (.memoryAccessOutOfRange 256) }) ∧
  (∀ s : State, s.run = .running → 256 ≤ s.pc →
    step s = .next { s with run := .faulted (.memoryAccessOutOfRange s.pc) }) ∧
  (∀ s : State, s.pc ≤ 255 → memRead s.pc s = .ok (opcodeAt s))

/-- The `Fetch` transaction of 40_engine.md section 6, over pc and memory alone: a pc outside memory raises with the pc
(above 256: log entry 2), a count of 3 raises before any operand is read (decision D8), an operand beyond memory raises
with 256, and otherwise it hands on the opcode, its count and exactly the operands the count asks for. -/
def Obligations.FetchTransaction : Prop :=
  ∀ (pc : Nat) (m : Memory),
    (256 ≤ pc → fetch pc m = .error (.memoryAccessOutOfRange pc)) ∧
    (pc < 256 → operandCount (m.byteAt pc) = 3 → fetch pc m = .error (.unsupportedInstruction (m.byteAt pc))) ∧
    (pc < 256 → operandCount (m.byteAt pc) ≤ 2 → 256 ≤ pc + operandCount (m.byteAt pc) →
      fetch pc m = .error (.memoryAccessOutOfRange 256)) ∧
    (operandCount (m.byteAt pc) ≤ 2 → pc + operandCount (m.byteAt pc) < 256 → ∃ f, fetch pc m = .ok f ∧
      f.ir = m.byteAt pc ∧ f.cnt = operandCount (m.byteAt pc) ∧
      (f.cnt = 0 → f.a = none ∧ f.b = none) ∧
      (f.cnt = 1 → f.a = some (m.byteAt (pc + 1)) ∧ f.b = none) ∧
      (f.cnt = 2 → f.a = some (m.byteAt (pc + 1)) ∧ f.b = some (m.byteAt (pc + 2))))

/-- The dispatch map of 40_engine.md R75, whole, and the fault where it has no entry (for a count of 0 to 2 and operands
inside memory). -/
def Obligations.DispatchMapAndItsFault : Prop :=
  dispatch 0x82 = some .ldi ∧ dispatch 0x47 = some .prn ∧ dispatch 0x01 = some .hlt ∧
  dispatch 0xA2 = some .mul ∧ dispatch 0x45 = some .push ∧ dispatch 0x46 = some .pop ∧
  (∀ v : Byte, v ≠ 0x82 → v ≠ 0x47 → v ≠ 0x01 → v ≠ 0xA2 → v ≠ 0x45 → v ≠ 0x46 → dispatch v = none) ∧
  (∀ s : State, s.run = .running → operandCount (opcodeAt s) ≤ 2 → s.pc + operandCount (opcodeAt s) ≤ 255 →
    dispatch (opcodeAt s) = none →
    step s = .next { s with run := .faulted (.unsupportedInstruction (opcodeAt s)) })

/-- An opcode 0xC0 to 0xFF faults as unsupported at every address, the top of memory included: no operand is fetched
(30_encoding.md section 4; decision D8). -/
def Obligations.CountThreeIsUnsupported : Prop :=
  ∀ s : State, s.run = .running → s.pc ≤ 255 → 0xC0 ≤ (opcodeAt s).toNat →
    step s = .next { s with run := .faulted (.unsupportedInstruction (opcodeAt s)) }

/-- An operand beyond the top of memory is the fault reported, whatever the opcode: supported or not, and whatever its
register operands (40_engine.md R74; conflict C8, decision D6). -/
def Obligations.OperandFetchPrecedesLookup : Prop :=
  ∀ s : State, s.run = .running → s.pc ≤ 255 → operandCount (opcodeAt s) ≤ 2 →
    256 ≤ s.pc + operandCount (opcodeAt s) →
    step s = .next { s with run := .faulted (.memoryAccessOutOfRange 256) }

/-- The whole priority list of 60_exceptions.md section 2 (decisions D6, D7, D8): what one step of a RUNNING machine
reports, and that it reports nothing where no item applies. -/
def Obligations.FaultPriority : Prop :=
  ∀ s : State, s.run = .running → ∃ t, step s = .next t ∧
    if 256 ≤ s.pc then t.run = .faulted (.memoryAccessOutOfRange s.pc)
    else if operandCount (opcodeAt s) = 3 then t.run = .faulted (.unsupportedInstruction (opcodeAt s))
    else if 1 ≤ operandCount (opcodeAt s) ∧ 256 ≤ s.pc + 1 then t.run = .faulted (.memoryAccessOutOfRange (s.pc + 1))
    else if operandCount (opcodeAt s) = 2 ∧ 256 ≤ s.pc + 2 then t.run = .faulted (.memoryAccessOutOfRange (s.pc + 2))
    else if dispatch (opcodeAt s) = none then t.run = .faulted (.unsupportedInstruction (opcodeAt s))
    else if opcodeAt s ≠ 0x01 ∧ 8 ≤ (s.mem.byteAt (s.pc + 1)).toNat then
      t.run = .faulted (.registerIndexOutOfRange (s.mem.byteAt (s.pc + 1)))
    else if opcodeAt s = 0xA2 ∧ 8 ≤ (s.mem.byteAt (s.pc + 2)).toNat then
      t.run = .faulted (.registerIndexOutOfRange (s.mem.byteAt (s.pc + 2)))
    else Safe t

/-- The transitions of the run state (40_engine.md R77): reset enters RUNNING; a step of a RUNNING machine completes and
stays RUNNING with the pc advanced, or halts by HLT, or faults and changes nothing but `run`; the terminal states have no
step. -/
def Obligations.RunStateTransitions : Prop :=
  (∀ S : Byte, (State.resetWith S).run = .running) ∧
  (∀ s t : State, step s = .next t → s.run = .running ∧
    ((t.run = .running ∧ t.pc = s.pc + 1 + operandCount (opcodeAt s) ∧
        ∃ i rest, decode (codeBytes s) = .ok (i, rest) ∧ i ≠ .hlt ∧ exec i s = .next t) ∨
     (opcodeAt s = 0x01 ∧ t = { s with run := .halted, out := s.out ++ [.haltNotice], pc := s.pc + 1 }) ∨
     (∃ c, t = { s with run := .faulted c }))) ∧
  (∀ s t : State, s.run = .halted → step s ≠ .next t) ∧
  (∀ (s t : State) c, s.run = .faulted c → step s ≠ .next t)

/-- A fault a step records fits the instruction at the pc: the address is 256, the unsupported opcode is the byte at the
pc, the bad index is an operand byte of 8 or more (the second operand's only for MUL), and the ALU's fault never occurs
(60_exceptions.md section 1, 20_memory.md section 3; decision D7 for the index). -/
def Obligations.FaultsFitTheInstruction : Prop :=
  ∀ (s t : State) (c : FaultCause), s.pc ≤ 256 → step s = .next t → t.run = .faulted c →
    (∀ addr, c = .memoryAccessOutOfRange addr → addr = 256) ∧
    (∀ ir, c = .unsupportedInstruction ir → ir = opcodeAt s ∧ dispatch ir = none) ∧
    (∀ i, c = .registerIndexOutOfRange i → 8 ≤ i.toNat ∧
      (i = s.mem.byteAt (s.pc + 1) ∨ opcodeAt s = 0xA2 ∧ i = s.mem.byteAt (s.pc + 2))) ∧
    (∀ op, c ≠ .unsupportedALUOperation op)

/-- The instruction placed by `State.withFetchWord` is the one the next step runs (log entry 5), and nothing but the
bytes at the pc is changed. -/
def Obligations.FetchWordIsRunNext : Prop :=
  ∀ (s : State) (nbits w : Nat),
    (∀ i, s.run = .running → s.pc ≤ 253 → decodeTableWord nbits w = some i →
      step (s.withFetchWord nbits w) = exec i (s.withFetchWord nbits w)) ∧
    (∀ addr, addr < s.pc ∨ s.pc + 3 ≤ addr → (s.withFetchWord nbits w).mem.byteAt addr = s.mem.byteAt addr) ∧
    (s.withFetchWord nbits w).pc = s.pc ∧ (s.withFetchWord nbits w).run = s.run ∧
    (s.withFetchWord nbits w).x = s.x ∧ (s.withFetchWord nbits w).out = s.out

/-! ### The whole machine -/

/-- Every step keeps the machine's invariant: canonical memory, pc at most 256, the stop notice given exactly in HALTED,
and a recorded fault that fits the state. -/
def Obligations.StepKeepsStateInv : Prop :=
  ∀ s t : State, StateInv s → step s = .next t → StateInv t

/-- The invariant holds after reset, whatever SP_INIT. -/
def Obligations.StateInvAtReset : Prop :=
  ∀ S : Byte, StateInv (State.resetWith S)

/-- The invariant holds at the first step of every run, whatever SP_INIT and program. -/
def Obligations.StateInvAtLaunch : Prop :=
  ∀ (S : Byte) (p : List Byte) (t : State), launch S p = some t → StateInv t

/-- Every run ends: from every RUNNING state the machine halts or faults within (256 - pc) / 2 + 1 steps, which is 129
from address 0 (40_engine.md section 5). -/
def Obligations.EveryRunEnds : Prop :=
  ∀ s : State, s.run = .running → ∃ (k : Nat) (t : State),
    k ≤ (256 - s.pc) / 2 + 1 ∧ Sys2Proof.core.run k s = .next t ∧ t.run ≠ .running

/-- A step that completes moves the pc by its instruction's width, without wrap and to at most 256; a step that faults
leaves it (10_state.md section 4). -/
def Obligations.PcAdvancesByWidth : Prop :=
  ∀ s t : State, step s = .next t →
    (Safe t → t.pc = s.pc + 1 + operandCount (opcodeAt s) ∧ t.pc ≤ 256 ∧
      (opcodeAt s = 0x01 → t.pc = s.pc + 1) ∧
      (opcodeAt s = 0x47 ∨ opcodeAt s = 0x45 ∨ opcodeAt s = 0x46 → t.pc = s.pc + 2) ∧
      (opcodeAt s = 0x82 ∨ opcodeAt s = 0xA2 → t.pc = s.pc + 3)) ∧
    (¬ Safe t → t.pc = s.pc)

/-- The registers a step can change: the first operand's by LDI, MUL and POP, SP by PUSH and POP, none else
(10_state.md section 2, the writes of its table). -/
def Obligations.RegistersWrittenPerTable : Prop :=
  ∀ (s t : State) (r : Nat) (hr : r < 8), step s = .next t → t.x[r] ≠ s.x[r] →
    ((opcodeAt s = 0x82 ∨ opcodeAt s = 0xA2 ∨ opcodeAt s = 0x46) ∧ (s.mem.byteAt (s.pc + 1)).toNat = r) ∨
    ((opcodeAt s = 0x45 ∨ opcodeAt s = 0x46) ∧ r = 7)

/-- A register an instruction neither reads nor writes by the table has no influence on it and keeps its value: with
another value there the instruction does the same, and the value is still there after it (10_state.md section 2). -/
def Obligations.UnusedRegistersDoNotMatter : Prop :=
  ∀ (i : Instr) (s t : State) (r : Nat) (hr : r < 8) (v : Byte), uses i r = false → exec i s = .next t →
    exec i { s with x := s.x.set r v } = .next { t with x := t.x.set r v }

/-- The one cell a step can change is the one PUSH stores in (20_memory.md section 1, its table of accesses). -/
def Obligations.MemoryWrittenOnlyByPush : Prop :=
  ∀ (s t : State) (addr : Nat), step s = .next t → t.mem.byteAt addr ≠ s.mem.byteAt addr →
    opcodeAt s = 0x45 ∧ addr = (s.x[7].toNat + 255) % 256

/-- Output is only ever appended to, one event at a time: by PRN the value of its register, by HLT the notice, by
nothing else (10_state.md section 6; the list of events is decision D13). -/
def Obligations.OutputAppendedByPrnAndHlt : Prop :=
  ∀ s t : State, step s = .next t →
    t.out = s.out ∨
    (opcodeAt s = 0x01 ∧ t.out = s.out ++ [.haltNotice]) ∨
    (opcodeAt s = 0x47 ∧ ∃ h : (s.mem.byteAt (s.pc + 1)).toNat < 8,
      t.out = s.out ++ [.print s.x[(s.mem.byteAt (s.pc + 1)).toNat]])

/-- Output cannot influence execution: with any other output so far the step appends the same events and does the same
(10_state.md section 6). -/
def Obligations.OutputDoesNotInfluenceExecution : Prop :=
  ∀ (s t : State) (o : List OutputEvent), step s = .next t → ∃ es : List OutputEvent,
    t.out = s.out ++ es ∧ step { s with out := o } = .next { t with out := o ++ es }

/-- A byte PUSH stores where the next instruction begins is the next opcode fetched, with no delay: a stored 0x01 halts
the machine in the very next step (20_memory.md section 4, decision D18). The address wraps below 0 (decision D9), and
for `a = 7` the byte is the new SP (decision D10). -/
def Obligations.StoreIsSeenByTheNextFetch : Prop :=
  ∀ (s t : State) (a : Byte) (h : a.toNat < 8), s.run = .running → pushAddr s = s.pc + 2 →
    exec (.push a) s = .next t →
    opcodeAt t = t.x[a.toNat] ∧
    (t.x[a.toNat] = 0x01 → ∃ u, step t = .next u ∧ Completed u)

end
end

