-- ==== Sys2Proof/Laws/Decode.lean ====
section
/-! SUPPORT. The tables: what each opcode byte dispatches to, and that tables and formats fit together. -/

namespace Sys2Proof.Laws

@[simp] theorem dispatch_opcode (h : Handler) : dispatch (opcode h) = some h := by cases h <;> decide

/-- A dispatch entry is the opcode of its handler: the tables are inverse to each other. -/
theorem opcode_of_dispatch {ir : Byte} {h : Handler} (he : dispatch ir = some h) : ir = opcode h := by
  unfold dispatch at he
  split_ifs at he with h1 h2 h3 h4 h5 h6 <;> cases he <;> assumption

/-- The bytes with no dispatch entry. -/
theorem dispatch_none {ir : Byte} :
    dispatch ir = none ↔ ir ≠ 0x82 ∧ ir ≠ 0x47 ∧ ir ≠ 0x01 ∧ ir ≠ 0xA2 ∧ ir ≠ 0x45 ∧ ir ≠ 0x46 := by
  unfold dispatch
  split_ifs with h1 h2 h3 h4 h5 h6 <;> simp_all

/-- The operand count is one of 0 to 3. -/
theorem operandCount_le (ir : Byte) : operandCount ir ≤ 3 := by
  have : ∀ ir : Byte, operandCount ir ≤ 3 := by decide
  exact this ir

/-- The count in an opcode is its instruction's number of operands (30_encoding.md R56). -/
theorem operandCount_opcode (i : Instr) : operandCount (opcode i.handler) = i.operands.length := by
  cases i <;> simp [Instr.handler, Instr.operands] <;> decide

/-- A handler takes its own operands back. -/
@[simp] theorem apply_operands (i : Instr) : i.handler.apply i.operands = some i := by cases i <;> rfl

/-- What a handler makes of operands carries exactly them. -/
theorem apply_eq_some {h : Handler} {ops : List Byte} {i : Instr} (he : h.apply ops = some i) :
    i.handler = h ∧ i.operands = ops := by
  unfold Handler.apply at he
  split at he <;> first | (cases he; exact ⟨rfl, rfl⟩) | exact absurd he (by simp)

@[simp] theorem lookup_own (i : Instr) : lookup (opcode i.handler) i.operands = some i := by
  simp [lookup]

/-- Everything the lookup can answer. -/
theorem lookup_eq_some {ir : Byte} {ops : List Byte} {i : Instr} (he : lookup ir ops = some i) :
    ir = opcode i.handler ∧ i.operands = ops := by
  unfold lookup at he
  split at he
  · cases he
  · rename_i h hd
    obtain ⟨hh, ho⟩ := apply_eq_some he
    exact ⟨hh ▸ opcode_of_dispatch hd, ho⟩

/-- With the number of operands its opcode's count gives, a dispatched opcode never lacks a handler. -/
theorem lookup_ne_none {ir : Byte} {ops : List Byte} (hl : ops.length = operandCount ir) :
    lookup ir ops = none ↔ dispatch ir = none := by
  unfold lookup
  split
  · simp [*]
  · rename_i h hd
    have hc := opcode_of_dispatch hd
    subst hc
    cases h with
    | hlt => rw [List.eq_nil_of_length_eq_zero hl]; simp [Handler.apply]
    | prn | push | pop => obtain ⟨a, rfl⟩ := List.length_eq_one_iff.mp hl; simp [Handler.apply]
    | ldi | mul => obtain ⟨a, b, rfl⟩ := List.length_eq_two.mp hl; simp [Handler.apply]

end Sys2Proof.Laws
end

