-- ==== Sys2Proof/Laws/Memory.lean ====
section
/-! SUPPORT. Memory: a read after a write, and that every memory operation keeps the canonical form. -/

namespace Sys2Proof.Laws

open Sys2Proof.Machine

@[simp] theorem byteAt_nil (a : Nat) : Memory.byteAt [] a = 0 := rfl

theorem byteAt_cons (c : Host.Cell) (m : Memory) (a : Nat) :
    Memory.byteAt (c :: m) a = if c.1 = a then c.2 else Memory.byteAt m a := rfl

theorem mem_eraseCell {m : Memory} {a : Nat} {c : Host.Cell} : c ∈ Memory.eraseCell m a ↔ c ∈ m ∧ c.1 ≠ a := by
  simp [Memory.eraseCell]

/-- An erased cell reads as at reset; every other cell as before. -/
theorem byteAt_eraseCell (m : Memory) (a b : Nat) :
    (Memory.eraseCell m a).byteAt b = if a = b then 0 else m.byteAt b := by
  induction m with
  | nil => simp [Memory.eraseCell]
  | cons c m ih =>
    by_cases hc : c.1 = a
    · have : Memory.eraseCell (c :: m) a = Memory.eraseCell m a := by simp [Memory.eraseCell, hc]
      rw [this, ih, byteAt_cons, hc]
      split <;> rfl
    · have : Memory.eraseCell (c :: m) a = c :: Memory.eraseCell m a := by simp [Memory.eraseCell, hc]
      rw [this, byteAt_cons, byteAt_cons, ih]
      by_cases hcb : c.1 = b
      · have : a ≠ b := fun h => hc (hcb.trans h.symm)
        simp [hcb, this]
      · simp [hcb]

/-- A cell put where no cell of its address stands is what is read there. -/
theorem byteAt_insertCell (m : Memory) (d : Host.Cell) (b : Nat) (h : ∀ c ∈ m, c.1 ≠ d.1) :
    Memory.byteAt (Memory.insertCell m d) b = if d.1 = b then d.2 else m.byteAt b := by
  induction m with
  | nil => simp [Memory.insertCell, byteAt_cons]
  | cons c m ih =>
    have hc := h c (by simp)
    have hm := ih (fun e he => h e (by simp [he]))
    simp only [Memory.insertCell]
    split
    · simp [byteAt_cons]
    · simp only [byteAt_cons, hm]
      by_cases hcb : c.1 = b
      · have : d.1 ≠ b := fun hd => hc (hcb.trans hd.symm)
        simp [hcb, this]
      · simp [hcb]

/-- A read after a write: the value written at its own address, every other cell as before. Holds of every list,
canonical or not. -/
@[simp] theorem byteAt_store (m : Memory) (a b : Nat) (v : Byte) :
    (m.store a v).byteAt b = if a = b then v else m.byteAt b := by
  unfold Memory.store
  split
  · rename_i h
    rw [byteAt_eraseCell, h]; rfl
  · rw [byteAt_insertCell _ (a, v) b (fun c hc => (mem_eraseCell.mp hc).2), byteAt_eraseCell]
    by_cases h : a = b <;> simp [h]

theorem mem_insertCell {m : Memory} {d c : Host.Cell} : c ∈ Memory.insertCell m d ↔ c = d ∨ c ∈ m := by
  induction m with
  | nil => simp [Memory.insertCell]
  | cons e m ih =>
    simp only [Memory.insertCell]
    split
    · simp
    · simp [ih]; tauto

theorem insertCell_pairwise {m : Memory} {d : Host.Cell} (hm : m.Pairwise (fun c d => c.1 < d.1))
    (h : ∀ c ∈ m, c.1 ≠ d.1) : (Memory.insertCell m d).Pairwise (fun c d => c.1 < d.1) := by
  induction m with
  | nil => simp [Memory.insertCell]
  | cons e m ih =>
    obtain ⟨he, hm'⟩ := List.pairwise_cons.mp hm
    have hed := h e (by simp)
    simp only [Memory.insertCell]
    split
    · rename_i hlt
      refine List.pairwise_cons.mpr ⟨fun c hc => ?_, hm⟩
      rcases List.mem_cons.mp hc with rfl | hc
      · exact hlt
      · exact hlt.trans (he c hc)
    · refine List.pairwise_cons.mpr ⟨fun c hc => ?_, ih hm' (fun c hc => h c (by simp [hc]))⟩
      rcases mem_insertCell.mp hc with rfl | hc
      · omega
      · exact he c hc

/-- A store inside memory keeps the canonical form. -/
theorem store_wf {m : Memory} {a : Nat} (v : Byte) (hm : m.wf) (ha : a < 256) : (m.store a v).wf := by
  obtain ⟨hp, hc⟩ := hm
  have hf : ∀ c ∈ Memory.eraseCell m a, c.1 < 256 ∧ c.2 ≠ Memory.unlisted :=
    fun c h => hc c (mem_eraseCell.mp h).1
  unfold Memory.store
  split
  · exact ⟨hp.filter _, hf⟩
  · rename_i hv
    refine ⟨insertCell_pairwise (hp.filter _) (fun c h => (mem_eraseCell.mp h).2), fun c h => ?_⟩
    rcases mem_insertCell.mp h with rfl | h
    · exact ⟨ha, hv⟩
    · exact hf c h

/-- What sequential stores leave in each cell. -/
theorem byteAt_storeBytes (bs : List Byte) (m : Memory) (addr b : Nat) :
    (Memory.storeBytes m addr bs).byteAt b =
      if h : addr ≤ b ∧ b < addr + bs.length then bs[b - addr]'(by omega) else m.byteAt b := by
  induction bs generalizing m addr with
  | nil => rw [dif_neg (by simp)]; rfl
  | cons v bs ih =>
    simp only [Memory.storeBytes, ih, byteAt_store, List.length_cons]
    by_cases hb : addr = b
    · subst hb
      rw [dif_neg (by omega), dif_pos (by omega)]; simp
    · by_cases h : addr + 1 ≤ b ∧ b < addr + 1 + bs.length
      · rw [dif_pos h, dif_pos (by omega)]
        have : b - addr = (b - (addr + 1)) + 1 := by omega
        simp [this]
      · rw [dif_neg h, dif_neg (by omega)]; simp [hb]

/-- Sequential stores inside memory keep the canonical form. -/
theorem storeBytes_wf (bs : List Byte) {m : Memory} {addr : Nat} (hm : m.wf) (h : addr + bs.length ≤ 256) :
    (Memory.storeBytes m addr bs).wf := by
  induction bs generalizing m addr with
  | nil => exact hm
  | cons v bs ih =>
    rw [List.length_cons] at h
    exact ih (store_wf v hm (by omega)) (by omega)

/-- Reset memory is in the canonical form. -/
theorem resetWith_mem_wf (spInit : Byte) : (State.resetWith spInit).mem.wf := ⟨List.Pairwise.nil, by simp [State.resetWith]⟩

/-- Placing an instruction's bytes keeps the canonical form, for they stop at the top of memory. -/
theorem placeAtPc_wf (bytes : List Byte) {s : State} (h : s.mem.wf) : (placeAtPc bytes s).mem.wf := by
  by_cases hpc : s.pc ≤ 256
  · refine storeBytes_wf _ h ?_
    have := List.length_take_le (256 - s.pc) bytes
    omega
  · have : 256 - s.pc = 0 := by omega
    simpa [placeAtPc, this, Memory.storeBytes] using h

end Sys2Proof.Laws
end

