-- ==== Sys2Proof/Laws/State.lean ====
section
/-! SUPPORT. One lemma per field per update of the state, so that no proof unfolds a record update. -/

namespace Sys2Proof.Laws

open Sys2Proof.Machine

variable (s : State) (n : Nat) (v : Byte) (e : OutputEvent)

@[simp] theorem advancePc_pc : (advancePc n s).pc = s.pc + n := rfl
@[simp] theorem advancePc_run : (advancePc n s).run = s.run := rfl
@[simp] theorem advancePc_x : (advancePc n s).x = s.x := rfl
@[simp] theorem advancePc_mem : (advancePc n s).mem = s.mem := rfl
@[simp] theorem advancePc_out : (advancePc n s).out = s.out := rfl

@[simp] theorem emit_pc : (emit e s).pc = s.pc := rfl
@[simp] theorem emit_run : (emit e s).run = s.run := rfl
@[simp] theorem emit_x : (emit e s).x = s.x := rfl
@[simp] theorem emit_mem : (emit e s).mem = s.mem := rfl
@[simp] theorem emit_out : (emit e s).out = s.out ++ [e] := rfl

@[simp] theorem signalHalt_pc : (signalHalt s).pc = s.pc := rfl
@[simp] theorem signalHalt_run : (signalHalt s).run = .halted := rfl
@[simp] theorem signalHalt_x : (signalHalt s).x = s.x := rfl
@[simp] theorem signalHalt_mem : (signalHalt s).mem = s.mem := rfl
@[simp] theorem signalHalt_out : (signalHalt s).out = s.out := rfl

@[simp] theorem spWrite_pc : (spWrite v s).pc = s.pc := rfl
@[simp] theorem spWrite_run : (spWrite v s).run = s.run := rfl
@[simp] theorem spWrite_x : (spWrite v s).x = s.x.set 7 v := rfl
@[simp] theorem spWrite_mem : (spWrite v s).mem = s.mem := rfl
@[simp] theorem spWrite_out : (spWrite v s).out = s.out := rfl

@[simp] theorem spDecrement_pc : (spDecrement s).pc = s.pc := rfl
@[simp] theorem spDecrement_run : (spDecrement s).run = s.run := rfl
@[simp] theorem spDecrement_x : (spDecrement s).x = s.x.set 7 (s.x[7] - 1) := rfl
@[simp] theorem spDecrement_mem : (spDecrement s).mem = s.mem := rfl
@[simp] theorem spDecrement_out : (spDecrement s).out = s.out := rfl

@[simp] theorem spIncrement_pc : (spIncrement s).pc = s.pc := rfl
@[simp] theorem spIncrement_run : (spIncrement s).run = s.run := rfl
@[simp] theorem spIncrement_x : (spIncrement s).x = s.x.set 7 (s.x[7] + 1) := rfl
@[simp] theorem spIncrement_mem : (spIncrement s).mem = s.mem := rfl
@[simp] theorem spIncrement_out : (spIncrement s).out = s.out := rfl

@[simp] theorem resetWith_pc : (State.resetWith v).pc = 0 := rfl
@[simp] theorem resetWith_run : (State.resetWith v).run = .running := rfl
@[simp] theorem resetWith_x : (State.resetWith v).x = #v[0, 0, 0, 0, 0, 0, 0, v] := rfl
@[simp] theorem resetWith_mem : (State.resetWith v).mem = [] := rfl
@[simp] theorem resetWith_out : (State.resetWith v).out = [] := rfl

@[simp] theorem spRead_eq : spRead s = s.x[7] := rfl

@[simp] theorem spRead_spWrite : spRead (spWrite v s) = v := by simp [spRead, spWrite]

end Sys2Proof.Laws
end

