-- ==== Sys2Proof/Laws/Ops.lean ====
section
/-! SUPPORT. One lemma per shared operation: everything it can answer. -/

namespace Sys2Proof.Laws

open Sys2Proof.Machine

theorem regOk_iff (i : Byte) : regOk i = true ↔ i.toNat < 8 := by simp [regOk]

theorem regRead_ok {i : Byte} (s : State) (h : i.toNat < 8) : regRead i s = .ok s.x[i.toNat] := by simp [regRead, h]

theorem regRead_error {i : Byte} (s : State) (h : 8 ≤ i.toNat) : regRead i s = .error (.registerIndexOutOfRange i) := by
  simp [regRead, h.not_gt]

theorem regWrite_ok {i : Byte} (v : Nat) (s : State) (h : i.toNat < 8) :
    regWrite i v s = .ok { s with x := s.x.set i.toNat (BitVec.ofNat 8 v) h } := by simp [regWrite, h]

theorem regWrite_error {i : Byte} (v : Nat) (s : State) (h : 8 ≤ i.toNat) :
    regWrite i v s = .error (.registerIndexOutOfRange i) := by simp [regWrite, h.not_gt]

theorem checkReg_ok {i : Byte} (h : i.toNat < 8) : checkReg i = .ok () := by simp [checkReg, h]

theorem checkReg_error {i : Byte} (h : 8 ≤ i.toNat) : checkReg i = .error (.registerIndexOutOfRange i) := by
  simp [checkReg, h.not_gt]

theorem read_ok {addr : Nat} (m : Memory) (h : addr < 256) : m.read addr = .ok (m.byteAt addr) := by
  simp [Memory.read, h.not_ge]

theorem read_error {addr : Nat} (m : Memory) (h : 256 ≤ addr) : m.read addr = .error (.memoryAccessOutOfRange addr) := by
  simp [Memory.read, h]

theorem memRead_ok {addr : Nat} (s : State) (h : addr < 256) : memRead addr s = .ok (s.mem.byteAt addr) :=
  read_ok s.mem h

theorem memRead_error {addr : Nat} (s : State) (h : 256 ≤ addr) :
    memRead addr s = .error (.memoryAccessOutOfRange addr) := read_error s.mem h

theorem memWrite_ok {addr : Nat} (v : Nat) (s : State) (h : addr < 256) :
    memWrite addr v s = .ok { s with mem := s.mem.store addr (BitVec.ofNat 8 v) } := by simp [memWrite, h.not_ge]

theorem memWrite_error {addr : Nat} (v : Nat) (s : State) (h : 256 ≤ addr) :
    memWrite addr v s = .error (.memoryAccessOutOfRange addr) := by simp [memWrite, h]

/-- `memWrite` keeps the canonical form of memory. -/
theorem memWrite_wf {addr v : Nat} {s t : State} (h : memWrite addr v s = .ok t) (hs : s.mem.wf) : t.mem.wf := by
  obtain ha | ha := Nat.lt_or_ge addr 256
  · rw [memWrite_ok v s ha] at h; cases h; exact store_wf _ hs ha
  · rw [memWrite_error v s ha] at h; cases h

@[simp] theorem immediate_narrowed (b : Byte) : BitVec.ofNat 8 (immediate b) = b := by simp [immediate]

@[simp] theorem ofNat_toNat_byte (b : Byte) : BitVec.ofNat 8 b.toNat = b := by simp

/-- Everything the ALU can answer for an operation of its known set. -/
theorem alu_known {op : AluOperation} {f : Nat → Nat → Nat} (a b : Byte) (s : State) (hf : aluOp op = some f) :
    alu op a b s =
      if ha : a.toNat < 8 then
        if hb : b.toNat < 8 then
          .ok { s with x := s.x.set a.toNat (BitVec.ofNat 8 (f s.x[a.toNat].toNat s.x[b.toNat].toNat)) ha }
        else .error (.registerIndexOutOfRange b)
      else .error (.registerIndexOutOfRange a) := by
  simp only [alu, hf]
  split_ifs with ha hb
  · simp [regRead_ok, regWrite_ok, ha, hb, bind, Except.bind]
  · simp [regRead_ok s ha, regRead_error s (Nat.le_of_not_lt hb), bind, Except.bind]
  · simp [regRead_error s (Nat.le_of_not_lt ha), bind, Except.bind]

/-- An operation name outside the known set, whatever the registers. -/
theorem alu_unknown {op : AluOperation} (a b : Byte) (s : State) (hf : aluOp op = none) :
    alu op a b s = .error (.unsupportedALUOperation op) := by simp [alu, hf]

theorem stackAddr_eq (s : State) : stackAddr s = s.x[7].toNat := rfl

/-- An address in SP is always in range (20_memory.md R44). -/
theorem stackAddr_lt (s : State) : stackAddr s < 256 := (spRead s).isLt

theorem pushAddr_eq (s : State) : pushAddr s = (s.x[7] - 1).toNat := by
  simp [pushAddr, stackAddr]

@[simp] theorem commit_ok (s t : State) : commit s (.ok t) = .next t := rfl

@[simp] theorem commit_error (s : State) (c : FaultCause) : commit s (.error c) = raise c s := rfl

theorem raise_eq (s : State) (c : FaultCause) : raise c s = .next { s with run := .faulted c } := rfl

/-- A handler always ends in a next state: its own, or the one that records a fault and changes nothing else. -/
theorem commit_next {s t : State} {r : Except FaultCause State} (h : commit s r = .next t) :
    r = .ok t ∨ ∃ c, r = .error c ∧ t = { s with run := .faulted c } := by
  cases r with
  | ok u => simp only [commit_ok, Host.Outcome.next.injEq] at h; exact .inl (h ▸ rfl)
  | error c => simp only [commit_error, raise_eq, Host.Outcome.next.injEq] at h; exact .inr ⟨c, rfl, h.symm⟩

end Sys2Proof.Laws
end

