-- ==== Sys2Proof/Laws/Engine.lean ====
section
/-! SUPPORT. What the engine's fetch and step can answer. -/

namespace Sys2Proof.Laws

open Sys2Proof.Machine

/-- Everything the fetch unit can answer, in its order: no opcode byte, count 3, an operand beyond memory, or the
opcode with its count and the operands the count asks for (40_engine.md R72 to R74). -/
theorem fetch_eq (pc : Nat) (m : Memory) :
    fetch pc m =
      if 256 ≤ pc then .error (.memoryAccessOutOfRange pc)
      else if operandCount (m.byteAt pc) = 3 then .error (.unsupportedInstruction (m.byteAt pc))
      else if 256 ≤ pc + operandCount (m.byteAt pc) then .error (.memoryAccessOutOfRange 256)
      else .ok
        { ir := m.byteAt pc
          cnt := operandCount (m.byteAt pc)
          a := if 1 ≤ operandCount (m.byteAt pc) then some (m.byteAt (pc + 1)) else none
          b := if operandCount (m.byteAt pc) = 2 then some (m.byteAt (pc + 2)) else none } := by
  have htop : m.read 256 = .error (.memoryAccessOutOfRange 256) := read_error m (Nat.le_refl 256)
  unfold fetch fetchOperand
  obtain hpc | hpc := Nat.lt_or_ge pc 256
  · simp only [read_ok m hpc, bind, Except.bind, hpc.not_ge, if_false]
    have hle := operandCount_le (m.byteAt pc)
    generalize operandCount (m.byteAt pc) = n at hle ⊢
    obtain rfl | rfl | rfl | rfl : n = 0 ∨ n = 1 ∨ n = 2 ∨ n = 3 := by omega
    · simp [hpc.not_ge, pure, Except.pure]
    · obtain h1 | h1 := Nat.lt_or_ge (pc + 1) 256
      · simp [read_ok m h1, h1.not_ge, Except.map, pure, Except.pure]
      · simp [show pc + 1 = 256 by omega, htop, Except.map]
    · obtain h1 | h1 := Nat.lt_or_ge (pc + 1) 256
      · obtain h2 | h2 := Nat.lt_or_ge (pc + 2) 256
        · simp [read_ok m h1, read_ok m h2, h2.not_ge, Except.map, pure, Except.pure]
        · simp [read_ok m h1, show pc + 2 = 256 by omega, htop, Except.map]
      · simp [show pc + 1 = 256 by omega, htop, Except.map, show 256 ≤ pc + 2 by omega]
    · simp
  · simp [read_error m hpc, hpc, bind, Except.bind]

/-- The operands fetched for a count of at most 2 are the bytes after the opcode, in order. -/
theorem operandsOf_fetched (ir : Byte) {n : Nat} (hn : n ≤ 2) (pc : Nat) (m : Memory) :
    operandsOf
        { ir := ir, cnt := n
          a := if 1 ≤ n then some (m.byteAt (pc + 1)) else none
          b := if n = 2 then some (m.byteAt (pc + 2)) else none } =
      (List.range n).map (fun k => m.byteAt (pc + 1 + k)) := by
  obtain rfl | rfl | rfl : n = 0 ∨ n = 1 ∨ n = 2 := by omega
  all_goals simp [operandsOf, List.range_succ, Nat.add_assoc]

/-- Everything actions 1 to 4 can answer, in the engine's order: no opcode byte, count 3, an operand beyond memory, no
handler, or an instruction (40_engine.md R71). -/
theorem fetchInstr_eq (s : State) :
    fetchInstr s =
      if 256 ≤ s.pc then .error (.memoryAccessOutOfRange s.pc)
      else if operandCount (s.mem.byteAt s.pc) = 3 then .error (.unsupportedInstruction (s.mem.byteAt s.pc))
      else if 256 ≤ s.pc + operandCount (s.mem.byteAt s.pc) then .error (.memoryAccessOutOfRange 256)
      else
        (lookup (s.mem.byteAt s.pc)
          ((List.range (operandCount (s.mem.byteAt s.pc))).map (fun k => s.mem.byteAt (s.pc + 1 + k)))).elim
          (.error (.unsupportedInstruction (s.mem.byteAt s.pc))) .ok := by
  unfold fetchInstr
  rw [fetch_eq]
  by_cases h1 : 256 ≤ s.pc
  · simp only [if_pos h1]; rfl
  by_cases h2 : operandCount (s.mem.byteAt s.pc) = 3
  · simp only [if_neg h1, if_pos h2]; rfl
  by_cases h3 : 256 ≤ s.pc + operandCount (s.mem.byteAt s.pc)
  · simp only [if_neg h1, if_neg h2, if_pos h3]; rfl
  have hle := operandCount_le (s.mem.byteAt s.pc)
  simp only [if_neg h1, if_neg h2, if_neg h3, bind, Except.bind, dispatchFetched,
    operandsOf_fetched _ (show operandCount (s.mem.byteAt s.pc) ≤ 2 by omega)]
  generalize lookup (s.mem.byteAt s.pc) _ = l
  cases l <;> rfl

/-- The step of a RUNNING machine whose fetch gives an instruction. -/
theorem step_of_instr {s : State} {i : Instr} (h : s.run = .running) (hf : fetchInstr s = .ok i) : step s = exec i s := by
  simp [step, noStep, h, hf]

/-- The step of a RUNNING machine whose fetch faults. -/
theorem step_of_fault {s : State} {c : FaultCause} (h : s.run = .running) (hf : fetchInstr s = .error c) :
    step s = raise c s := by
  simp [step, noStep, h, hf]

/-- A step that answers began in RUNNING. -/
theorem running_of_step {s t : State} (h : step s = .next t) : s.run = .running := by
  unfold step noStep at h
  cases hr : s.run <;> simp [hr] at h ⊢

end Sys2Proof.Laws
end

