-- ==== Sys2Proof/Laws/PerInstr.lean ====
section
/-! SUPPORT. Statements made for all instructions, one lemma per constructor. -/

namespace Sys2Proof.Laws

/-- The encoding of an instruction is one opcode byte and as many bytes as the opcode's top two bits say
(spec 30_encoding.md R55, R56), at most three in all. -/
def EncodingLength.Statement (i : Instr) : Prop :=
  (encode i).length = 1 + operandCount (opcode i.handler) ∧ (encode i).length ≤ 3

theorem EncodingLength.ldi (a b : Byte) : EncodingLength.Statement (.ldi a b) := by
  constructor <;> simp [encode, Instr.operands, Instr.handler, opcode, operandCount]

theorem EncodingLength.prn (a : Byte) : EncodingLength.Statement (.prn a) := by
  constructor <;> simp [encode, Instr.operands, Instr.handler, opcode, operandCount]

theorem EncodingLength.hlt : EncodingLength.Statement .hlt := by
  constructor <;> simp [encode, Instr.operands, Instr.handler, opcode, operandCount]

theorem EncodingLength.mul (a b : Byte) : EncodingLength.Statement (.mul a b) := by
  constructor <;> simp [encode, Instr.operands, Instr.handler, opcode, operandCount]

theorem EncodingLength.push (a : Byte) : EncodingLength.Statement (.push a) := by
  constructor <;> simp [encode, Instr.operands, Instr.handler, opcode, operandCount]

theorem EncodingLength.pop (a : Byte) : EncodingLength.Statement (.pop a) := by
  constructor <;> simp [encode, Instr.operands, Instr.handler, opcode, operandCount]

end Sys2Proof.Laws
end

