-- ==== Sys2Proof/Machine/Console.lean ====
section
/-! DEFINITION. The text the console output sink shows for an output event (spec 41_ldi_prn.md R92, 42_hlt.md R101,
decision D25). It belongs to the sink: no step uses it, and the machine's observable is the event itself. -/

namespace Sys2Proof.Machine

/-- The characters shown, line end included: `Value: ` and the unsigned decimal, or `Stopping...`. -/
def OutputEvent.text : OutputEvent → List Char
  | .print v => ['V', 'a', 'l', 'u', 'e', ':', ' '] ++ Nat.toDigits 10 v.toNat ++ ['\n']
  | .haltNotice => ['S', 't', 'o', 'p', 'p', 'i', 'n', 'g', '.', '.', '.', '\n']

end Sys2Proof.Machine
end

