-- ==== Sys2Proof/Tests/Slice0.lean ====
section
/-! SUPPORT. Tests. Expected results are those of spec/95_test_vectors.md (the vector is named in each comment) or of
the rule named; the witness theorems show that the hypotheses of the statements in Certificates/Slice0/Obligations.lean
can be met, each clause at a boundary of its range. -/

namespace Sys2Proof.Tests

open Sys2Proof.Machine

/-- A running state with `bytes` at `pc` and these registers. -/
def at' (pc : Nat) (bytes : List Byte) (x : Vector Byte 8) : State :=
  { State.resetWith 0 with pc := pc, x := x, mem := Memory.storeBytes [] pc bytes }

/-- Registers all 0 but SP. -/
def sp (v : Byte) : Vector Byte 8 := #v[0, 0, 0, 0, 0, 0, 0, v]

/-- The next state, if there is one. -/
def next? : Host.Outcome State Fault Refusal → Option State
  | .next t => some t
  | _ => none

/-- One field of the state after one step. -/
def after {α : Type} (f : State → α) (s : State) : Option α := (next? (step s)).map f

/-! ### Well-formedness: one ill-formed term for each check -/

theorem test_ill_formed_ldi : ¬ (Instr.ldi 8 0).WellFormed := by decide
theorem test_ill_formed_prn : ¬ (Instr.prn 8).WellFormed := by decide
theorem test_ill_formed_mul_first : ¬ (Instr.mul 9 0).WellFormed := by decide
theorem test_ill_formed_mul_second : ¬ (Instr.mul 0 10).WellFormed := by decide
theorem test_ill_formed_push : ¬ (Instr.push 255).WellFormed := by decide
theorem test_ill_formed_pop : ¬ (Instr.pop 8).WellFormed := by decide
theorem test_well_formed : (Instr.ldi 7 255).WellFormed ∧ Instr.hlt.WellFormed ∧ (Instr.mul 7 7).WellFormed := by decide

/-! ### Decoding: each encoding written out bit by bit from 30_encoding.md R54, operand bits from R52 -/

theorem test_decode_ldi : decode [0b10000010, 0b00000000, 0b00001000] = .ok (.ldi 0 8, []) := by rfl
theorem test_decode_prn : decode [0b01000111, 0b00000011, 0xAA] = .ok (.prn 3, [0xAA]) := by rfl
theorem test_decode_hlt : decode [0b00000001, 0x47] = .ok (.hlt, [0x47]) := by rfl
theorem test_decode_mul : decode [0b10100010, 0b00000001, 0b00000010] = .ok (.mul 1 2, []) := by rfl
theorem test_decode_push : decode [0b01000101, 0b00000111] = .ok (.push 7, []) := by rfl
theorem test_decode_pop : decode [0b01000110, 0b10000011] = .ok (.pop 0x83, []) := by rfl

/-- FD7, FD12, FD15, FD17, FD18: the whole byte is matched. -/
theorem test_dispatch_none :
    dispatch 0x00 = none ∧ dispatch 0xA0 = none ∧ dispatch 0xC2 = none ∧ dispatch 0x81 = none ∧ dispatch 0x41 = none := by
  decide

/-- FD9, FD11, FD14: operand bytes are wanted before the lookup, but none for a count of 3. -/
theorem test_decode_order :
    decode [0x44] = .error (.missing 1) ∧ decode [0x83, 0] = .error (.missing 2) ∧
      decode [0xC0] = .error (.unsupported 0xC0) := ⟨rfl, rfl, rfl⟩

/-- The opcode is the least significant byte of a table word, the first operand the next. -/
theorem test_table_word : decodeTableWord 24 0x0801A2 = some (.mul 1 8) ∧ decodeTableWord 8 0xFF47 = some (.prn 0) := by
  decide

/-- 40_engine.md R74: `a` at `pc + 1`, `b` at `pc + 2`, none where the count does not ask for it. -/
theorem test_fetch :
    fetch 253 [(253, 0xA2), (254, 1), (255, 2)] = .ok { ir := 0xA2, cnt := 2, a := some 1, b := some 2 } ∧
    fetch 254 [(254, 0x44), (255, 3)] = .ok { ir := 0x44, cnt := 1, a := some 3, b := none } ∧
    fetch 255 [(255, 0x47)] = .error (.memoryAccessOutOfRange 256) := ⟨rfl, rfl, rfl⟩

/-! ### Instructions, one step each -/

/-- LD7: an LDI that ends at 255 leaves the pc at 256. -/
theorem test_ldi_top : after (fun t => (t.x[0], t.pc, t.run)) (at' 253 [0x82, 0x00, 0x2A] (sp 0)) =
    some (0x2A, 256, .running) := by decide

/-- LD6. -/
theorem test_ldi_bad_register : after (fun t => (t.run, t.pc)) (at' 0 [0x82, 0xFF, 0x01] (sp 0)) =
    some (.faulted (.registerIndexOutOfRange 255), 0) := by decide

/-- PR3 and the order of events: the new one is last. -/
theorem test_prn : after (fun t => (t.out, t.pc))
    { at' 0 [0x47, 0x02] #v[0, 0, 255, 0, 0, 0, 0, 0] with out := [.print 7] } = some ([.print 7, .print 255], 2) := by decide

/-- PR5. -/
theorem test_prn_bad_register : after (fun t => (t.run, t.out)) (at' 0 [0x47, 0x08] (sp 0)) =
    some (.faulted (.registerIndexOutOfRange 8), []) := by decide

/-- HL2. -/
theorem test_hlt_top : after (fun t => (t.run, t.pc, t.out)) (at' 255 [0x01] (sp 0)) =
    some (.halted, 256, [.haltNotice]) := by decide

/-- M6, with the destination the first operand (M13). -/
theorem test_mul_wraps : after (fun t => (t.x[1], t.x[0], t.pc)) (at' 6 [0xA2, 1, 0] #v[3, 200, 0, 0, 0, 0, 0, 0]) =
    some (88, 3, 9) := by decide

/-- M11, source and destination the same; M18, operand `a` is checked first. -/
theorem test_mul_square_and_fault :
    after (fun t => t.x[3]) (at' 0 [0xA2, 3, 3] #v[0, 0, 0, 255, 0, 0, 0, 0]) = some 1 ∧
    after (fun t => t.run) (at' 0 [0xA2, 9, 10] (sp 0)) = some (.faulted (.registerIndexOutOfRange 9)) := by decide

/-- ST3: SP wraps from 0 to 255. -/
theorem test_push_wraps : after (fun t => (t.x[7], t.mem.byteAt 255)) (at' 0 [0x45, 0] #v[0xAB, 0, 0, 0, 0, 0, 0, 0]) =
    some (0xFF, 0xAB) := by decide

/-- ST5: `PUSH r7` stores the decremented SP. -/
theorem test_push_sp : after (fun t => (t.x[7], t.mem.byteAt 0xF3)) (at' 0 [0x45, 7] (sp 0xF4)) = some (0xF3, 0xF3) := by
  decide

/-- ST2: the popped byte stays in memory. -/
theorem test_pop : after (fun t => (t.x[1], t.x[7], t.mem.byteAt 0xF3, t.pc))
    { at' 8 [0x46, 1] (sp 0xF3) with mem := [(8, 0x46), (9, 1), (0xF3, 0x2A)] } = some (0x2A, 0xF4, 0x2A, 10) := by decide

/-- ST7: `POP r7` increments the loaded byte, 255 wrapping to 0. -/
theorem test_pop_sp : after (fun t => t.x[7]) { at' 0 [] (sp 0xF3) with mem := [(0, 0x46), (1, 7), (0xF3, 0xFF)] } = some 0 := by
  decide

/-- AL1 and AL2, the ALU's interface. -/
theorem test_alu : (alu .add 0 1 (at' 0 [] #v[200, 100, 0, 0, 0, 0, 0, 0])).map (fun t => t.x[0]) = .ok 44 ∧
    alu (.other "SUB") 0 1 State.reset = .error (.unsupportedALUOperation (.other "SUB")) := ⟨rfl, rfl⟩

/-! ### Faults and their priority -/

/-- FT5, FT6, FT7, FT8. -/
theorem test_faults_at_the_top :
    after State.run (at' 254 [0x82, 0] (sp 0)) = some (.faulted (.memoryAccessOutOfRange 256)) ∧
    after State.run (at' 255 [0x83] (sp 0)) = some (.faulted (.memoryAccessOutOfRange 256)) ∧
    after State.run (at' 255 [0xC0] (sp 0)) = some (.faulted (.unsupportedInstruction 0xC0)) ∧
    after State.run (at' 255 [0x02] (sp 0)) = some (.faulted (.unsupportedInstruction 0x02)) := by decide

/-- FT9, FT10, FT11, FT1. -/
theorem test_fault_order :
    after State.run (at' 254 [0x82, 9] (sp 0)) = some (.faulted (.memoryAccessOutOfRange 256)) ∧
    after State.run (at' 254 [0x47, 0x83] (sp 0)) = some (.faulted (.registerIndexOutOfRange 0x83)) ∧
    after State.run (at' 0 [0x83, 9, 9] (sp 0)) = some (.faulted (.unsupportedInstruction 0x83)) ∧
    after State.run (at' 256 [] (sp 0)) = some (.faulted (.memoryAccessOutOfRange 256)) := by decide

/-- FT12, FT13: no step. -/
theorem test_no_step (s : State) : step { s with run := .halted } = .fault .halted := rfl

/-- Z2 and Z4. -/
theorem test_launch : (launch 0xF4 [0x01]).map (fun t => (t.x[7], t.mem)) = some (0xF4, [(0, 0x01)]) ∧
    launch 0xF4 (List.replicate 257 0x01) = none := 
  ⟨by decide, if_pos (by rw [List.length_replicate]; decide)⟩

/-- PR1 and S7, the text the sink shows. -/
theorem test_text : (OutputEvent.print 72).text = ['V', 'a', 'l', 'u', 'e', ':', ' ', '7', '2', '\n'] ∧
    (OutputEvent.print 0).text = ['V', 'a', 'l', 'u', 'e', ':', ' ', '0', '\n'] := by decide

/-- A store of the reset value unlists the cell, so that equal memories are equal lists. -/
theorem test_store_canonical : Memory.store [(1, 5), (3, 7)] 3 0 = [(1, 5)] ∧ Memory.store [(1, 5), (3, 7)] 2 9 = [(1, 5), (2, 9), (3, 7)] ∧
    Memory.wf (Memory.store [(1, 5), (3, 7)] 255 9) := by decide

/-- The first instruction after reset is the one placed there. -/
theorem test_fetch_word : after (fun t => (t.x[0], t.pc)) (State.reset.withFetchWord 24 0x080082) = some (8, 3) := by decide

/-! ### Witnesses for the hypotheses of the statements -/

theorem witness_OperandCountIsTopTwoBits : operandCount 0x82 ≠ 3 ∧ ([0] : List Byte).length < operandCount 0x82 := by decide

theorem witness_RegisterAccessIsBoundsChecked : 8 ≤ (8 : Byte).toNat ∧ (7 : Byte).toNat < 8 ∧ 6 < 8 ∧ 6 ≠ (7 : Byte).toNat := by
  decide

theorem witness_MemReadIsBoundsChecked : 256 ≤ 256 ∧ 255 < 256 := by decide

theorem witness_MemWriteStoresOneCell : 256 ≤ 256 ∧ 255 < 256 ∧ 254 ≠ 255 ∧ (at' 255 [1] (sp 0)).mem.wf := by decide

theorem witness_CanonicalMemoryIsUnique : Memory.wf [(0, 1), (255, 2)] := by decide

theorem witness_CatalogRowsDecode : dispatch 0x46 ≠ none := by decide

theorem witness_ResetSetsEveryComponent : 6 < 8 ∧ 6 < 7 ∧ 255 < 256 := by decide

theorem witness_LoadLeavesTheProgramImage :
    (List.replicate 256 (1 : Byte)).length ≤ 256 ∧ 255 < (List.replicate 256 (1 : Byte)).length ∧
    (List.replicate 255 (1 : Byte)).length ≤ 255 ∧ 255 ≤ 255 := by
  rw [List.length_replicate, List.length_replicate]; decide

theorem witness_AluContract : 8 ≤ (8 : Byte).toNat ∧ (7 : Byte).toNat < 8 ∧ (0 : Byte).toNat < 8 ∧ 0 ≠ (7 : Byte).toNat := by decide

/-- The condition of the memory clause of an instruction's statement, on both sides of its last legal address. -/
theorem witness_LdiLoadsImmediate : (7 : Byte).toNat < 8 ∧ 8 ≤ (8 : Byte).toNat ∧
    (at' 253 [0x82] (sp 0)).run = .running ∧ (at' 253 [0x82] (sp 0)).pc ≤ 255 ∧ opcodeAt (at' 253 [0x82] (sp 0)) = 0x82 ∧
    (at' 254 [0x82] (sp 0)).run = .running ∧ (at' 254 [0x82] (sp 0)).pc ≤ 255 ∧ opcodeAt (at' 254 [0x82] (sp 0)) = 0x82 := by
  decide

theorem witness_PrnPrintsRegister : (7 : Byte).toNat < 8 ∧ 8 ≤ (8 : Byte).toNat ∧
    (at' 254 [0x47] (sp 0)).run = .running ∧ (at' 254 [0x47] (sp 0)).pc ≤ 255 ∧ opcodeAt (at' 254 [0x47] (sp 0)) = 0x47 ∧
    (at' 255 [0x47] (sp 0)).run = .running ∧ (at' 255 [0x47] (sp 0)).pc ≤ 255 ∧ opcodeAt (at' 255 [0x47] (sp 0)) = 0x47 := by
  decide

theorem witness_HltHalts : (at' 255 [0x01] (sp 0)).run = .running ∧ (at' 255 [0x01] (sp 0)).pc ≤ 255 ∧
    opcodeAt (at' 255 [0x01] (sp 0)) = 0x01 ∧ after State.run (at' 255 [0x01] (sp 0)) = some .halted ∧
    (next? (exec .hlt (at' 255 [0x01] (sp 0)))).isSome := by decide

theorem witness_MulMultiplies : (7 : Byte).toNat < 8 ∧ 6 ≠ (7 : Byte).toNat ∧ 8 ≤ (8 : Byte).toNat ∧
    (at' 253 [0xA2] (sp 0)).run = .running ∧ (at' 253 [0xA2] (sp 0)).pc ≤ 255 ∧ opcodeAt (at' 253 [0xA2] (sp 0)) = 0xA2 ∧
    (at' 254 [0xA2] (sp 0)).run = .running ∧ (at' 254 [0xA2] (sp 0)).pc ≤ 255 ∧ opcodeAt (at' 254 [0xA2] (sp 0)) = 0xA2 := by
  decide

theorem witness_PushStoresRegister : (7 : Byte).toNat < 8 ∧ 6 ≠ 7 ∧ 8 ≤ (8 : Byte).toNat ∧
    (at' 254 [0x45] (sp 0)).run = .running ∧ (at' 254 [0x45] (sp 0)).pc ≤ 255 ∧ opcodeAt (at' 254 [0x45] (sp 0)) = 0x45 ∧
    (at' 255 [0x45] (sp 0)).run = .running ∧ (at' 255 [0x45] (sp 0)).pc ≤ 255 ∧ opcodeAt (at' 255 [0x45] (sp 0)) = 0x45 := by
  decide

theorem witness_PopLoadsRegister : (6 : Byte).toNat < 8 ∧ (6 : Byte) ≠ 7 ∧ (7 : Byte).toNat < 8 ∧ 8 ≤ (8 : Byte).toNat ∧
    (at' 254 [0x46] (sp 0)).run = .running ∧ (at' 254 [0x46] (sp 0)).pc ≤ 255 ∧ opcodeAt (at' 254 [0x46] (sp 0)) = 0x46 ∧
    (at' 255 [0x46] (sp 0)).run = .running ∧ (at' 255 [0x46] (sp 0)).pc ≤ 255 ∧ opcodeAt (at' 255 [0x46] (sp 0)) = 0x46 := by
  decide

theorem witness_WellFormedInstructionsComplete : (Instr.push 7).WellFormed := by decide

theorem witness_LdiMulFrame : (∃ t, exec (.ldi 7 1) State.reset = .next t) ∧ (Instr.ldi 7 1).wf = true ∧ 6 ≠ (7 : Byte).toNat ∧
    (∃ t, exec (.mul 0 8) State.reset = .next t) ∧ (Instr.mul 0 8).wf = false := ⟨⟨_, rfl⟩, rfl, by decide, ⟨_, rfl⟩, rfl⟩

theorem witness_PrnHltFrame : (∃ t, exec (.prn 7) State.reset = .next t) ∧ (Instr.prn 7).wf = true ∧
    (∃ t, exec (.prn 8) State.reset = .next t) ∧ (Instr.prn 8).wf = false ∧ (∃ t, exec .hlt State.reset = .next t) :=
  ⟨⟨_, rfl⟩, rfl, ⟨_, rfl⟩, rfl, ⟨_, rfl⟩⟩

theorem witness_PushFrame : (∃ t, exec (.push 7) State.reset = .next t) ∧ (7 : Byte).toNat < 8 ∧ 6 ≠ 7 ∧ 0xF4 ≠ pushAddr State.reset ∧
    (∃ t, exec (.push 8) State.reset = .next t) ∧ 8 ≤ (8 : Byte).toNat := ⟨⟨_, rfl⟩, by decide, by decide, by decide, ⟨_, rfl⟩, by decide⟩

theorem witness_PopFrame : (∃ t, exec (.pop 0) State.reset = .next t) ∧ (0 : Byte).toNat < 8 ∧ 6 ≠ (0 : Byte).toNat ∧ 6 ≠ 7 ∧
    (∃ t, exec (.pop 8) State.reset = .next t) ∧ 8 ≤ (8 : Byte).toNat := ⟨⟨_, rfl⟩, by decide, by decide, by decide, ⟨_, rfl⟩, by decide⟩

theorem witness_PushThenPopRestoresRegisters (s : State) (hs : s = at' 252 [0x45, 7, 0x46, 7] (sp 0xF4)) :
    (7 : Byte).toNat < 8 ∧ s.run = .running ∧ s.pc ≤ 252 ∧ opcodeAt s = 0x45 ∧ s.mem.byteAt (s.pc + 1) = 7 ∧
    s.mem.byteAt (s.pc + 2) = 0x46 ∧ s.mem.byteAt (s.pc + 3) = 7 ∧ pushAddr s ≠ s.pc + 2 ∧ pushAddr s ≠ s.pc + 3 := by
  subst hs; decide

theorem witness_PushedValuesPopInReverse : ([0, 6] : List Byte).length = ([3, 3] : List Byte).length ∧ ([0, 6] : List Byte).length ≤ 256 ∧
    (∀ r ∈ ([0, 6] : List Byte), r.toNat < 7) ∧ (∀ r ∈ ([3, 3] : List Byte), r.toNat < 7) ∧ 1 < ([3, 3] : List Byte).length ∧
    1 < ([0, 6] : List Byte).reverse.length := by decide

theorem witness_StepRunsDecodedInstruction : (at' 255 [0x01] (sp 0)).run = .running ∧
    ∃ rest, decode (codeBytes (at' 255 [0x01] (sp 0))) = .ok (.hlt, rest) := ⟨rfl, _, rfl⟩

theorem witness_StepFaultsWhereDecodingFails : (at' 255 [0xC0] (sp 0)).run = .running ∧
    decode (codeBytes (at' 255 [0xC0] (sp 0))) = .error (.unsupported 0xC0) ∧
    decode (codeBytes (at' 255 [0x47] (sp 0))) = .error (.missing 1) ∧ decode (codeBytes (at' 256 [] (sp 0))) = .error (.missing 0) :=
  ⟨rfl, rfl, rfl, rfl⟩

theorem witness_HasStepExactlyWhenRunning : ({ State.reset with run := .halted } : State).run = .halted ∧
    ({ State.reset with run := .faulted (.unsupportedInstruction 0) } : State).run = .faulted (.unsupportedInstruction 0) := by decide

theorem witness_OpcodeFetchAtPc : (at' 256 [] (sp 0)).run = .running ∧ (at' 256 [] (sp 0)).pc = 256 ∧ (at' 255 [] (sp 0)).pc ≤ 255 := by
  decide

/-- Each clause of the statement at a boundary of its range. -/
theorem witness_FetchTransaction : 256 ≤ 256 ∧ 255 < 256 ∧
    operandCount (Memory.byteAt [(255, 0xC0)] 255) = 3 ∧
    operandCount (Memory.byteAt [(254, 0x82)] 254) = 2 ∧ 256 ≤ 254 + operandCount (Memory.byteAt [(254, 0x82)] 254) ∧
    253 + operandCount (Memory.byteAt [(253, 0x82)] 253) < 256 ∧ 255 + operandCount (Memory.byteAt [(255, 0x01)] 255) < 256 := by
  decide

theorem witness_DispatchMapAndItsFault : (0xA0 : Byte) ≠ 0x82 ∧ (0xA0 : Byte) ≠ 0x47 ∧ (0xA0 : Byte) ≠ 0x01 ∧ (0xA0 : Byte) ≠ 0xA2 ∧
    (0xA0 : Byte) ≠ 0x45 ∧ (0xA0 : Byte) ≠ 0x46 ∧ (at' 253 [0xA0] (sp 0)).run = .running ∧
    operandCount (opcodeAt (at' 253 [0xA0] (sp 0))) ≤ 2 ∧
    (at' 253 [0xA0] (sp 0)).pc + operandCount (opcodeAt (at' 253 [0xA0] (sp 0))) ≤ 255 ∧
    dispatch (opcodeAt (at' 253 [0xA0] (sp 0))) = none := by decide

theorem witness_CountThreeIsUnsupported : (at' 255 [0xC0] (sp 0)).run = .running ∧ (at' 255 [0xC0] (sp 0)).pc ≤ 255 ∧
    0xC0 ≤ (opcodeAt (at' 255 [0xC0] (sp 0))).toNat := by decide

theorem witness_OperandFetchPrecedesLookup : (at' 254 [0x83] (sp 0)).run = .running ∧ (at' 254 [0x83] (sp 0)).pc ≤ 255 ∧
    operandCount (opcodeAt (at' 254 [0x83] (sp 0))) ≤ 2 ∧
    256 ≤ (at' 254 [0x83] (sp 0)).pc + operandCount (opcodeAt (at' 254 [0x83] (sp 0))) := by decide

theorem witness_FaultPriority : State.reset.run = .running := by decide

theorem witness_RunStateTransitions : (next? (step (at' 0 [0x47, 0] (sp 0)))).isSome ∧
    ({ State.reset with run := .halted } : State).run = .halted ∧
    ({ State.reset with run := .faulted (.unsupportedInstruction 0) } : State).run = .faulted (.unsupportedInstruction 0) := by decide

/-- A fault of each cause that a step can record: its address, its opcode, its first and its second operand. -/
theorem witness_FaultsFitTheInstruction :
    (at' 256 [] (sp 0)).pc ≤ 256 ∧ after State.run (at' 256 [] (sp 0)) = some (.faulted (.memoryAccessOutOfRange 256)) ∧
    after State.run (at' 255 [0] (sp 0)) = some (.faulted (.unsupportedInstruction 0)) ∧
    after State.run (at' 254 [0x47, 8] (sp 0)) = some (.faulted (.registerIndexOutOfRange 8)) ∧
    after State.run (at' 253 [0xA2, 7, 8] (sp 0)) = some (.faulted (.registerIndexOutOfRange 8)) := by decide

theorem witness_FetchWordIsRunNext : (at' 253 [] (sp 0)).run = .running ∧ (at' 253 [] (sp 0)).pc ≤ 253 ∧
    decodeTableWord 24 0x080082 = some (.ldi 0 8) ∧ 252 < (at' 253 [] (sp 0)).pc ∧ (at' 0 [] (sp 0)).pc + 3 ≤ 3 := by decide

theorem witness_StepKeepsStateInv : StateInv State.reset ∧ ∃ t, step State.reset = .next t :=
  ⟨⟨⟨List.Pairwise.nil, by simp [State.reset, State.resetWith]⟩, by decide, by decide,
    by simp [State.reset, State.resetWith]⟩, _, rfl⟩

theorem witness_StateInvAtLaunch : (launch 0 [0x01]).isSome := by decide

theorem witness_EveryRunEnds : State.reset.run = .running := by decide

theorem witness_PcAdvancesByWidth :
    after State.run (at' 253 [0x82] (sp 0)) = some .running ∧ after State.run (at' 254 [0x45] (sp 0)) = some .running ∧
    after State.run (at' 255 [0x01] (sp 0)) = some .halted ∧
    after State.run (at' 255 [0x45] (sp 0)) = some (.faulted (.memoryAccessOutOfRange 256)) := by decide

theorem witness_RegistersWrittenPerTable : after (fun t => t.x[7]) (at' 0 [0x45, 0] (sp 0)) = some 255 ∧
    (at' 0 [0x45, 0] (sp 0)).x[7] = 0 ∧ after (fun t => t.x[6]) (at' 0 [0x82, 6, 1] (sp 0)) = some 1 := by decide

theorem witness_UnusedRegistersDoNotMatter : uses (.pop 0) 6 = false ∧ ∃ t, exec (.pop 0) State.reset = .next t := ⟨rfl, _, rfl⟩

theorem witness_MemoryWrittenOnlyByPush :
    after (fun t => t.mem.byteAt 255) (at' 0 [0x45, 1] #v[0, 9, 0, 0, 0, 0, 0, 0]) = some 9 ∧
    (at' 0 [0x45, 1] (sp 0)).mem.byteAt 255 = 0 := by decide

theorem witness_OutputAppendedByPrnAndHlt : after State.out (at' 0 [0x47, 7] (sp 5)) = some [.print 5] ∧
    after State.out (at' 0 [0x01] (sp 5)) = some [.haltNotice] := by decide

theorem witness_OutputDoesNotInfluenceExecution : (next? (step (at' 0 [0x47, 7] (sp 5)))).isSome := by decide

/-- SP = 3 makes the store land at 2, where the instruction after this PUSH begins (as in ST11). -/
theorem witness_StoreIsSeenByTheNextFetch (s : State) (hs : s = at' 0 [0x45, 0] #v[1, 0, 0, 0, 0, 0, 0, 3]) :
    (0 : Byte).toNat < 8 ∧ s.run = .running ∧ pushAddr s = s.pc + 2 ∧
    (next? (exec (.push 0) s)).map (fun t => t.x[0]) = some 1 := by subst hs; decide

end Sys2Proof.Tests
end

namespace Sys2Proof.Proofs

open Sys2Proof.Machine Sys2Proof.Laws

/-- Settles O5: the two clauses are the two answers of `MemRead`, one on each side of 256 (20_memory.md R31). -/
theorem memReadIsBoundsChecked : Obligations.MemReadIsBoundsChecked := by
  intro addr s
  exact ⟨memRead_error s, memRead_ok s⟩

end Sys2Proof.Proofs

/-! The encoder against the decoder (spec 30_encoding.md R51 to R56). -/

namespace Sys2Proof.Proofs

open Sys2Proof.Laws

/-- What the encoder writes, the decoder reads back, and it leaves the bytes after it (30_encoding.md R50, R52). -/
@[simp] theorem decode_encode_append (i : Instr) (rest : List Byte) :
    decode (encode i ++ rest) = .ok (i, rest) := by
  have hcount := operandCount_opcode i
  have hne : i.operands.length ≠ 3 := by cases i <;> simp [Instr.operands]
  simp [encode, decode, hcount, hne]

/-- An instruction's encoding alone decodes to it, with no byte left over. -/
theorem decode_encode (i : Instr) : decode (encode i) = .ok (i, []) := by
  simpa using decode_encode_append i []

/-- Every opcode of the table is one of the six catalog bytes (30_encoding.md R54). -/
theorem opcode_mem_catalog (h : Handler) :
    opcode h = 130 ∨ opcode h = 71 ∨ opcode h = 1 ∨ opcode h = 162 ∨ opcode h = 69 ∨ opcode h = 70 := by
  cases h <;> decide

/-- Settles O2: each row is its instruction's encoding, and a dispatch entry is the opcode of its handler
(30_encoding.md R54). -/
theorem catalogRowsDecode : Obligations.CatalogRowsDecode := by
  intro a b
  refine ⟨decode_encode (.ldi a b), decode_encode (.prn a), decode_encode .hlt, decode_encode (.mul a b),
    decode_encode (.push a), decode_encode (.pop a), fun ir hne => ?_⟩
  obtain ⟨h, hd⟩ := Option.ne_none_iff_exists'.mp hne
  rw [opcode_of_dispatch hd]
  exact opcode_mem_catalog h

end Sys2Proof.Proofs

/-! The opcode's operand count, and the dispatch fault (spec 40_engine.md R73, R75). -/

namespace Sys2Proof.Proofs

open Sys2Proof.Machine Sys2Proof.Laws

/-- The count `ir >> 6` as a quotient (40_engine.md R73). -/
theorem operandCount_eq_div (ir : Byte) : operandCount ir = ir.toNat / 64 := by
  simp [operandCount, BitVec.toNat_ushiftRight, Nat.shiftRight_eq_div_pow]

/-- The count `ir >> 6` as the slice of bits 7 and 6 (40_engine.md R73). -/
theorem operandCount_eq_extractLsb (ir : Byte) : operandCount ir = (ir.extractLsb 7 6).toNat := by
  have hslice : (ir.extractLsb 7 6).toNat = ir.toNat / 64 % 4 := by
    simp [BitVec.extractLsb_toNat, Nat.shiftRight_eq_div_pow]
  rw [operandCount_eq_div, hslice]
  omega

/-- With too few bytes for the count, the decoder names the first missing one, whatever the opcode. -/
theorem decode_missing {ir : Byte} {rest : List Byte} (h3 : operandCount ir ≠ 3)
    (hlen : rest.length < operandCount ir) : decode (ir :: rest) = .error (.missing (rest.length + 1)) := by
  simp only [decode, if_neg h3, if_pos hlen]

/-- Settles O3: the count is a slice and a quotient of the opcode byte, and `decode` tests it before the lookup
(40_engine.md R73). -/
theorem operandCountIsTopTwoBits : Obligations.OperandCountIsTopTwoBits := by
  intro ir
  exact ⟨operandCount_eq_extractLsb ir, operandCount_eq_div ir, operandCount_le ir,
    fun h3 _ hlen => decode_missing h3 hlen⟩

/-- An opcode with no dispatch entry has no handler, whatever its operands. -/
theorem lookup_of_dispatch_none {ir : Byte} (h : dispatch ir = none) (ops : List Byte) : lookup ir ops = none := by
  simp [lookup, h]

/-- Where the fetch succeeds and the table has no entry, the lookup raises (40_engine.md R75). -/
theorem fetchInstr_of_dispatch_none {s : State} (hcount : operandCount (opcodeAt s) ≤ 2)
    (hend : s.pc + operandCount (opcodeAt s) ≤ 255) (hd : dispatch (opcodeAt s) = none) :
    fetchInstr s = .error (.unsupportedInstruction (opcodeAt s)) := by
  have hpc : ¬ 256 ≤ s.pc := by omega
  have h3 : operandCount (opcodeAt s) ≠ 3 := by omega
  have htop : ¬ 256 ≤ s.pc + operandCount (opcodeAt s) := by omega
  rw [fetchInstr_eq, if_neg hpc, if_neg h3, if_neg htop, lookup_of_dispatch_none hd]
  rfl

/-- Settles O29: each handler's opcode dispatches to it, `dispatch_none` gives every other byte, and the step takes
the fault of the failed lookup (40_engine.md R75). -/
theorem dispatchMapAndItsFault : Obligations.DispatchMapAndItsFault := by
  refine ⟨dispatch_opcode .ldi, dispatch_opcode .prn, dispatch_opcode .hlt, dispatch_opcode .mul,
    dispatch_opcode .push, dispatch_opcode .pop, ?_, ?_⟩
  · intro v h82 h47 h01 hA2 h45 h46
    exact dispatch_none.mpr ⟨h82, h47, h01, hA2, h45, h46⟩
  · intro s hrun hcount hend hd
    rw [step_of_fault hrun (fetchInstr_of_dispatch_none hcount hend hd), raise_eq]

end Sys2Proof.Proofs

/-! The engine's fetch is the decoder over the bytes at the pc (spec 40_engine.md R71 to R76). -/

namespace Sys2Proof.Proofs

open Sys2Proof.Machine Sys2Proof.Laws

/-- The fault the engine raises at `pc` for bytes that do not decode (40_engine.md R72 to R75). -/
def decodeFault (pc : Nat) : DecodeError → FaultCause
  | .missing k => .memoryAccessOutOfRange (pc + k)
  | .unsupported ir => .unsupportedInstruction ir

/-- No byte can be fetched from beyond memory. -/
theorem codeBytes_of_pc_ge {s : State} (h : 256 ≤ s.pc) : codeBytes s = [] := by
  simp [codeBytes, Nat.sub_eq_zero_of_le h]

/-- Inside memory the bytes at the pc are the opcode and the bytes after it. -/
theorem codeBytes_of_pc_lt {s : State} (h : s.pc < 256) :
    codeBytes s = opcodeAt s :: (List.range (255 - s.pc)).map (fun k => s.mem.byteAt (s.pc + 1 + k)) := by
  have hlen : 256 - s.pc = (255 - s.pc) + 1 := by omega
  rw [codeBytes, hlen, List.range_succ_eq_map]
  simp [Function.comp_def, Nat.add_assoc, Nat.add_comm 1]

/-- The first byte at the pc is the opcode. -/
theorem opcodeAt_of_codeBytes {s : State} {c : Byte} {l : List Byte} (h : codeBytes s = c :: l) : opcodeAt s = c := by
  obtain hpc | hpc := Nat.lt_or_ge s.pc 256
  · rw [codeBytes_of_pc_lt hpc] at h
    exact (List.cons.inj h).1
  · rw [codeBytes_of_pc_ge hpc] at h
    cases h

/-- Read by read, the engine answers what the decoder does over the bytes at the pc, with the decoder's error as a fault
(40_engine.md R71). -/
theorem fetchInstr_eq_decode (s : State) :
    fetchInstr s = ((decode (codeBytes s)).map Prod.fst).mapError (decodeFault s.pc) := by
  rw [fetchInstr_eq]
  obtain hpc | hpc := Nat.lt_or_ge s.pc 256
  case inr => rw [if_pos hpc, codeBytes_of_pc_ge hpc]; rfl
  rw [if_neg hpc.not_ge, codeBytes_of_pc_lt hpc, decode, List.length_map, List.length_range]
  by_cases h3 : operandCount (opcodeAt s) = 3
  · rw [if_pos h3, if_pos h3]; rfl
  rw [if_neg h3, if_neg h3]
  by_cases hend : 256 ≤ s.pc + operandCount (opcodeAt s)
  · have htop : s.pc + (255 - s.pc + 1) = 256 := by omega
    rw [if_pos hend, if_pos (by omega)]
    simp [Except.map, Except.mapError, decodeFault, htop]
  · have htake : min (operandCount (opcodeAt s)) (255 - s.pc) = operandCount (opcodeAt s) := by omega
    rw [if_neg hend, if_neg (by omega), ← List.map_take, List.take_range, htake]
    cases lookup (opcodeAt s) _ <;> rfl

/-- The engine fetches an instruction exactly where the bytes at the pc decode to it. -/
theorem fetchInstr_eq_ok_iff {s : State} {i : Instr} :
    fetchInstr s = .ok i ↔ ∃ rest, decode (codeBytes s) = .ok (i, rest) := by
  rw [fetchInstr_eq_decode]
  cases decode (codeBytes s) with
  | error e => simp [Except.map, Except.mapError]
  | ok p => simp [Except.map, Except.mapError, Prod.ext_iff]

/-- What the decoder accepts is the instruction's encoding followed by the bytes it leaves (30_encoding.md R52, R57). -/
theorem eq_encode_append_of_decode {bs : List Byte} {i : Instr} {rest : List Byte}
    (h : decode bs = .ok (i, rest)) : bs = encode i ++ rest := by
  cases bs with
  | nil => cases h
  | cons ir bytes =>
    simp only [decode] at h
    split_ifs at h with h3 hlen
    split at h
    next => cases h
    next j hl =>
      cases h
      obtain ⟨hir, hops⟩ := lookup_eq_some hl
      rw [encode, hops, ← hir, List.cons_append, List.take_append_drop]

/-- A fetched instruction's opcode stands at the pc. -/
theorem opcodeAt_of_fetchInstr {s : State} {i : Instr} (h : fetchInstr s = .ok i) :
    opcodeAt s = opcode i.handler := by
  obtain ⟨rest, hdec⟩ := fetchInstr_eq_ok_iff.mp h
  exact opcodeAt_of_codeBytes (eq_encode_append_of_decode hdec)

/-- Everything a step with a next state can be: a RUNNING machine that fetched an instruction and executed it, or whose
fetch raised (40_engine.md R71). -/
theorem step_next {s t : State} (h : step s = .next t) :
    s.run = .running ∧
      ((∃ i, fetchInstr s = .ok i ∧ exec i s = .next t) ∨
        ∃ c, fetchInstr s = .error c ∧ t = { s with run := .faulted c }) := by
  have hrun := running_of_step h
  refine ⟨hrun, ?_⟩
  cases hf : fetchInstr s with
  | ok i => exact .inl ⟨i, rfl, step_of_instr hrun hf ▸ h⟩
  | error c =>
    rw [step_of_fault hrun hf, raise_eq] at h
    cases h
    exact .inr ⟨c, rfl, rfl⟩

end Sys2Proof.Proofs

/-! What each of the six instructions does, as one equation (spec files 41 to 44), and what any of them can do to the
run state and the pc. -/

namespace Sys2Proof.Proofs

open Sys2Proof.Machine Sys2Proof.Laws

/-- A primitive that answers hands its value on to the rest of the handler. -/
theorem ok_bind {α β : Type} (x : α) (f : α → Except FaultCause β) : (Except.ok x >>= f) = f x := rfl

/-- A primitive that raises ends the handler. -/
theorem error_bind {α β : Type} (c : FaultCause) (f : α → Except FaultCause β) :
    (Except.error c >>= f) = .error c := rfl

variable (a b : Byte) (s : State)

/-- LDI (41_ldi_prn.md R90). -/
theorem exec_ldi : exec (.ldi a b) s =
    if h : a.toNat < 8 then .next (advancePc 3 { s with x := s.x.set a.toNat b h })
    else raise (.registerIndexOutOfRange a) s := by
  rw [exec, execLdi]
  split_ifs with h
  · rw [regWrite_ok _ s h, ok_bind, immediate_narrowed]; rfl
  · rw [regWrite_error _ s (Nat.le_of_not_lt h), error_bind, commit_error]

/-- PRN (41_ldi_prn.md R91). -/
theorem exec_prn : exec (.prn a) s =
    if h : a.toNat < 8 then .next (advancePc 2 (emit (.print s.x[a.toNat]) s))
    else raise (.registerIndexOutOfRange a) s := by
  rw [exec, execPrn]
  split_ifs with h
  · rw [regRead_ok s h, ok_bind]; rfl
  · rw [regRead_error s (Nat.le_of_not_lt h), error_bind, commit_error]

/-- HLT (42_hlt.md R100). -/
theorem exec_hlt : exec .hlt s = .next { s with run := .halted, out := s.out ++ [.haltNotice], pc := s.pc + 1 } := rfl

/-- MUL (43_alu_mul.md R109); where both indices are bad, the first is reported (decision D6). -/
theorem exec_mul : exec (.mul a b) s =
    if ha : a.toNat < 8 then
      if hb : b.toNat < 8 then .next (advancePc 3 { s with x := s.x.set a.toNat (s.x[a.toNat] * s.x[b.toNat]) ha })
      else raise (.registerIndexOutOfRange b) s
    else raise (.registerIndexOutOfRange a) s := by
  rw [exec, execMul, alu_known a b s rfl]
  split_ifs with ha hb
  · rw [ok_bind, BitVec.ofNat_mul, ofNat_toNat_byte, ofNat_toNat_byte]; rfl
  · rw [error_bind, commit_error]
  · rw [error_bind, commit_error]

/-- PUSH (44_stack_push_pop.md R116); the register is read after the decrement (decision D10). -/
theorem exec_push : exec (.push a) s =
    if h : a.toNat < 8 then
      .next (advancePc 2 { spDecrement s with mem := s.mem.store (pushAddr s) (spDecrement s).x[a.toNat] })
    else raise (.registerIndexOutOfRange a) s := by
  rw [exec, execPush]
  split_ifs with h
  · simp only [checkReg_ok h, regRead_ok (spDecrement s) h, memWrite_ok _ _ (stackAddr_lt (spDecrement s)), ok_bind,
      ofNat_toNat_byte]
    rfl
  · rw [checkReg_error (Nat.le_of_not_lt h), error_bind, commit_error]

/-- POP (44_stack_push_pop.md R117); the increment is of register 7 as the load left it (decision D10). -/
theorem exec_pop : exec (.pop a) s =
    if h : a.toNat < 8 then
      .next (advancePc 2 (spIncrement { s with x := s.x.set a.toNat (s.mem.byteAt (stackAddr s)) h }))
    else raise (.registerIndexOutOfRange a) s := by
  rw [exec, execPop]
  split_ifs with h
  · rw [checkReg_ok h, ok_bind, memRead_ok s (stackAddr_lt s), ok_bind, regWrite_ok _ s h, ok_bind, ofNat_toNat_byte]
    rfl
  · rw [checkReg_error (Nat.le_of_not_lt h), error_bind, commit_error]

variable {s}

/-- What an instruction other than HLT can do to the run state and the pc: it keeps the one and moves the other past its
bytes, or it records a fault and changes nothing else (40_engine.md R76, R80). -/
theorem exec_next_of_ne_hlt {i : Instr} {t : State} (hi : i ≠ .hlt) (h : exec i s = .next t) :
    (t.run = s.run ∧ t.pc = s.pc + 1 + i.operands.length) ∨ ∃ c, t = { s with run := .faulted c } := by
  cases i with
  | hlt => exact absurd rfl hi
  | ldi | prn | mul | push | pop =>
    simp only [exec_ldi, exec_prn, exec_mul, exec_push, exec_pop, raise_eq] at h
    split_ifs at h <;> cases h <;> simp [Instr.operands]

end Sys2Proof.Proofs

/-! The transitions of the run state (spec 40_engine.md R77). -/

namespace Sys2Proof.Proofs

open Sys2Proof.Machine Sys2Proof.Laws

/-- A machine that is not RUNNING has no next state (40_engine.md R70). -/
theorem step_ne_next_of_not_running {s : State} (h : s.run ≠ .running) (t : State) : step s ≠ .next t :=
  fun hstep => h (running_of_step hstep)

/-- Settles O33: a step either executes what it fetched, HLT or not, or takes the fault of its fetch, and the terminal
states have no step (40_engine.md R77). -/
theorem runStateTransitions : Obligations.RunStateTransitions := by
  refine ⟨resetWith_run, fun s t h => ?_, fun s t hr => ?_, fun s t c hr => ?_⟩
  · obtain ⟨hrun, ⟨i, hf, he⟩ | ⟨c, -, rfl⟩⟩ := step_next h
    · have hop := opcodeAt_of_fetchInstr hf
      refine ⟨hrun, ?_⟩
      by_cases hi : i = .hlt
      · subst hi
        rw [exec_hlt] at he
        cases he
        exact .inr (.inl ⟨hop, rfl⟩)
      · obtain ⟨rest, hdec⟩ := fetchInstr_eq_ok_iff.mp hf
        obtain ⟨hkeep, hpc⟩ | hfault := exec_next_of_ne_hlt hi he
        · rw [← operandCount_opcode, ← hop] at hpc
          exact .inl ⟨hkeep.trans hrun, hpc, i, rest, hdec, hi, he⟩
        · exact .inr (.inr hfault)
    · exact ⟨hrun, .inr (.inr ⟨c, rfl⟩)⟩
  · exact step_ne_next_of_not_running (by simp [hr]) t
  · exact step_ne_next_of_not_running (by simp [hr]) t

end Sys2Proof.Proofs

/-! HLT (spec 42_hlt.md R100). -/

namespace Sys2Proof.Proofs

open Sys2Proof.Machine Sys2Proof.Laws

/-- An instruction whose encoding stands at the pc is the one fetched (40_engine.md R71). -/
theorem fetchInstr_of_codeBytes {s : State} {i : Instr} {rest : List Byte} (h : codeBytes s = encode i ++ rest) :
    fetchInstr s = .ok i :=
  fetchInstr_eq_ok_iff.mpr ⟨rest, h ▸ decode_encode_append i rest⟩

/-- HLT's one byte is all its fetch reads, so it is fetched at 255 too. -/
theorem fetchInstr_hlt {s : State} (hpc : s.pc ≤ 255) (hop : opcodeAt s = 0x01) : fetchInstr s = .ok .hlt := by
  have hbytes := codeBytes_of_pc_lt (Nat.lt_succ_of_le hpc)
  rw [hop] at hbytes
  exact fetchInstr_of_codeBytes (i := .hlt) hbytes

/-- HLT is the only way to HALTED: every other transition of a step ends RUNNING or FAULTED (40_engine.md R77). -/
theorem opcodeAt_of_step_halted {s t : State} (h : step s = .next t) (hhalt : t.run = .halted) :
    opcodeAt s = 0x01 := by
  obtain ⟨-, htransition, -, -⟩ := runStateTransitions
  obtain ⟨-, ⟨hrun, -⟩ | ⟨hop, -⟩ | ⟨c, rfl⟩⟩ := htransition s t h
  · rw [hhalt] at hrun
    cases hrun
  · exact hop
  · cases hhalt

/-- An executed HLT leaves the machine HALTED. -/
theorem run_of_exec_hlt {s t : State} (h : exec .hlt s = .next t) : t.run = .halted := by
  rw [exec_hlt] at h
  cases h
  rfl

/-- Settles O14: HLT's equation, its fetch at every address, the transitions of the run state, and the terminal state it
leaves (42_hlt.md R100). -/
theorem hltHalts : Obligations.HltHalts := by
  refine ⟨rfl, exec_hlt, fun s hrun hpc hop => step_of_instr hrun (fetchInstr_hlt hpc hop),
    fun s t => opcodeAt_of_step_halted, fun s t u h => ?_⟩
  have hhalt := run_of_exec_hlt h
  exact step_ne_next_of_not_running (by simp [hhalt]) u

end Sys2Proof.Proofs

/-! Reset and the program load (spec 70_reset_and_hazards.md R160 to R162). -/

namespace Sys2Proof.Proofs

open Sys2Proof.Machine Sys2Proof.Laws

/-- The register file at reset is zero but for SP (70_reset_and_hazards.md R160). -/
theorem resetWith_x_eq_set (S : Byte) : (State.resetWith S).x = (Vector.replicate 8 0).set 7 S := rfl

theorem resetWith_x_of_lt {r : Nat} (S : Byte) (hr : r < 8) (h7 : r < 7) : (State.resetWith S).x[r] = 0 := by
  simp only [resetWith_x_eq_set]
  rw [Vector.getElem_set_ne _ _ h7.ne', Vector.getElem_replicate]

/-- Settles O8: reset's fields, the registers below SP by `resetWith_x_of_lt` (70_reset_and_hazards.md R160). -/
theorem resetSetsEveryComponent : Obligations.ResetSetsEveryComponent := by
  intro S
  exact ⟨resetWith_pc S, resetWith_run S, fun r hr h7 => resetWith_x_of_lt S hr h7, rfl,
    fun a _ => byteAt_nil a, resetWith_out S, Config.spInit, rfl⟩

/-- A program that fits is loaded from address 0 into the memory of reset, all else as reset left it
(70_reset_and_hazards.md R162). -/
theorem launch_eq_some (S : Byte) {p : List Byte} (h : p.length ≤ 256) :
    launch S p = some { State.resetWith S with mem := Memory.storeBytes [] 0 p } :=
  if_neg h.not_gt

/-- The image a load leaves: the program's bytes, then the reset value (70_reset_and_hazards.md R162). -/
theorem byteAt_load (p : List Byte) (i : Nat) :
    (Memory.storeBytes [] 0 p).byteAt i = if h : i < p.length then p[i] else 0 := by
  simp [byteAt_storeBytes]

/-- From reset with nothing loaded, the zero byte at address 0 has no handler (40_engine.md R75). -/
theorem step_resetWith (S : Byte) : step (State.resetWith S) =
    .next { State.resetWith S with run := .faulted (.unsupportedInstruction 0x00) } := by
  have hop : opcodeAt (State.resetWith S) = 0x00 := rfl
  have hcount : operandCount (opcodeAt (State.resetWith S)) = 0 := by rw [hop]; rfl
  have hdispatch : dispatch (opcodeAt (State.resetWith S)) = none := by rw [hop]; rfl
  have hfetch := fetchInstr_of_dispatch_none (by omega) (by rw [hcount, resetWith_pc]; omega) hdispatch
  rw [step_of_fault (resetWith_run S) hfetch, raise_eq, hop]

/-- Settles O9: `byteAt_load` reads the image on both sides of the program's end, and the empty program leaves the state
of reset (70_reset_and_hazards.md R162). -/
theorem loadLeavesTheProgramImage : Obligations.LoadLeavesTheProgramImage := by
  refine ⟨fun S p hp => ⟨_, launch_eq_some S hp, rfl, rfl, rfl, rfl, fun i hi => ?_, fun i hi _ => ?_⟩,
    fun S => ⟨State.resetWith S, launch_eq_some S (Nat.zero_le _), step_resetWith S⟩⟩
  · exact (byteAt_load p i).trans (dif_pos hi)
  · exact (byteAt_load p i).trans (dif_neg hi.not_gt)

end Sys2Proof.Proofs

/-! The decoder in both directions, and the fetch it stands for (spec 30_encoding.md R52, R57; 40_engine.md R71 to R74,
R83). -/

namespace Sys2Proof.Proofs

open Sys2Proof.Machine Sys2Proof.Laws

/-- Settles O1: an accepted list is the encoding and the rest, and every encoding is accepted (30_encoding.md R52, R57). -/
theorem decodeAcceptsExactlyTheEncodings : Obligations.DecodeAcceptsExactlyTheEncodings := by
  intro bs i rest
  constructor
  · exact eq_encode_append_of_decode
  · rintro rfl
    exact decode_encode_append i rest

/-- Settles O25: the instruction decoded is the one fetched, and the step executes it (40_engine.md R71). -/
theorem stepRunsDecodedInstruction : Obligations.StepRunsDecodedInstruction := by
  intro s i rest hrun hdec
  exact step_of_instr hrun (fetchInstr_eq_ok_iff.mpr ⟨rest, hdec⟩)

/-- Where the bytes at the pc do not decode, a RUNNING machine takes the decoder's fault (40_engine.md R71). -/
theorem step_of_decode_error {s : State} {e : DecodeError} (hrun : s.run = .running)
    (hdec : decode (codeBytes s) = .error e) : step s = .next { s with run := .faulted (decodeFault s.pc e) } := by
  have hfetch : fetchInstr s = .error (decodeFault s.pc e) := by rw [fetchInstr_eq_decode, hdec]; rfl
  rw [step_of_fault hrun hfetch, raise_eq]

/-- Settles O26: `step_of_decode_error` at each of the decoder's two errors. -/
theorem stepFaultsWhereDecodingFails : Obligations.StepFaultsWhereDecodingFails := by
  intro s hrun
  exact ⟨fun _ hdec => step_of_decode_error hrun hdec, fun _ hdec => step_of_decode_error hrun hdec⟩

/-- A pc outside memory raises before anything is fetched (40_engine.md R72). -/
theorem fetchInstr_of_pc_ge {s : State} (h : 256 ≤ s.pc) : fetchInstr s = .error (.memoryAccessOutOfRange s.pc) := by
  rw [fetchInstr_eq, if_pos h]

/-- A count of 3 raises before any operand is fetched (40_engine.md R74, decision D8). -/
theorem fetchInstr_of_count_three {s : State} (hpc : s.pc ≤ 255) (h3 : operandCount (opcodeAt s) = 3) :
    fetchInstr s = .error (.unsupportedInstruction (opcodeAt s)) := by
  rw [fetchInstr_eq, if_neg (by omega), if_pos h3]

/-- An operand beyond memory raises before the lookup (40_engine.md R74, decision D6). -/
theorem fetchInstr_of_operand_missing {s : State} (hpc : s.pc ≤ 255) (hcount : operandCount (opcodeAt s) ≤ 2)
    (hend : 256 ≤ s.pc + operandCount (opcodeAt s)) : fetchInstr s = .error (.memoryAccessOutOfRange 256) := by
  have h3 : operandCount (opcodeAt s) ≠ 3 := by omega
  rw [fetchInstr_eq, if_neg (by omega), if_neg h3, if_pos hend]

/-- Settles O28: the fault of the opcode fetch, and `MemRead` below 256 (40_engine.md R72). -/
theorem opcodeFetchAtPc : Obligations.OpcodeFetchAtPc := by
  have hfault : ∀ s : State, s.run = .running → 256 ≤ s.pc →
      step s = .next { s with run := .faulted (.memoryAccessOutOfRange s.pc) } := fun s hrun hpc => by
    rw [step_of_fault hrun (fetchInstr_of_pc_ge hpc), raise_eq]
  refine ⟨fun s hrun hpc => ?_, hfault, fun s hpc => memRead_ok s (by omega)⟩
  rw [hfault s hrun hpc.ge, hpc]

/-- Settles O30: from 0xC0 on the count is 3 (30_encoding.md R58, decision D8). -/
theorem countThreeIsUnsupported : Obligations.CountThreeIsUnsupported := by
  intro s hrun hpc hop
  have h3 : operandCount (opcodeAt s) = 3 := by
    have hlt := (opcodeAt s).isLt
    rw [operandCount_eq_div]
    omega
  rw [step_of_fault hrun (fetchInstr_of_count_three hpc h3), raise_eq]

/-- Settles O31: the operand fetch raises before the lookup is reached (40_engine.md R74). -/
theorem operandFetchPrecedesLookup : Obligations.OperandFetchPrecedesLookup := by
  intro s hrun hpc hcount hend
  rw [step_of_fault hrun (fetchInstr_of_operand_missing hpc hcount hend), raise_eq]

/-- Settles O47: the four answers of `fetch_eq`, one for each clause (40_engine.md R72 to R74, R83). -/
theorem fetchTransaction : Obligations.FetchTransaction := by
  intro pc m
  rw [fetch_eq]
  refine ⟨fun hpc => if_pos hpc, fun hpc h3 => ?_, fun hpc hcount hend => ?_, fun hcount hend => ?_⟩
  · rw [if_neg hpc.not_ge, if_pos h3]
  · rw [if_neg hpc.not_ge, if_neg (by omega), if_pos hend]
  · rw [if_neg (by omega), if_neg (by omega), if_neg hend.not_ge]
    refine ⟨_, rfl, rfl, rfl, fun (h0 : operandCount (m.byteAt pc) = 0) => ?_,
      fun (h1 : operandCount (m.byteAt pc) = 1) => ?_, fun (h2 : operandCount (m.byteAt pc) = 2) => ?_⟩
    · simp [h0]
    · simp [h1]
    · simp [h2]

end Sys2Proof.Proofs

/-! Memory: the store's contract, and that the canonical form determines the list (spec 20_memory.md R32, log entry 4). -/

namespace Sys2Proof.Proofs

open Sys2Proof.Machine Sys2Proof.Laws

/-- Settles O6: the store of `byteAt_store`, kept canonical by `store_wf` (20_memory.md R32, decision D11). -/
theorem memWriteStoresOneCell : Obligations.MemWriteStoresOneCell := by
  intro addr v s
  refine ⟨memWrite_error v s, fun haddr => ⟨_, memWrite_ok v s haddr, ?_, fun b hb => ?_, rfl, rfl, rfl, rfl,
    fun hwf => store_wf _ hwf haddr⟩⟩
  · simp
  · simp [hb.symm]

/-- Below every listed address a memory reads the reset value. -/
theorem byteAt_eq_unlisted_of_lt {m : Memory} {a : Nat} (h : ∀ c ∈ m, a < c.1) : m.byteAt a = Memory.unlisted := by
  induction m with
  | nil => rfl
  | cons c m ih =>
    rw [byteAt_cons, if_neg (h c (by simp)).ne']
    exact ih fun d hd => h d (by simp [hd])

/-- The first cell of a canonical memory holds no reset value, the cells after it lie above it, and what is left
without it is canonical. -/
theorem wf_cons {c : Host.Cell} {m : Memory} (h : Memory.wf (c :: m)) :
    c.2 ≠ Memory.unlisted ∧ (∀ d ∈ m, c.1 < d.1) ∧ m.wf := by
  obtain ⟨hrising, hcells⟩ := h
  obtain ⟨habove, hrest⟩ := List.pairwise_cons.mp hrising
  exact ⟨(hcells c (by simp)).2, habove, hrest, fun d hd => hcells d (by simp [hd])⟩

@[simp] theorem byteAt_head (c : Host.Cell) (m : Memory) : Memory.byteAt (c :: m) c.1 = c.2 := if_pos rfl

/-- The first address of a canonical memory is no higher than that of one that reads alike. -/
theorem head_le_of_byteAt_eq {c d : Host.Cell} {m m' : Memory} (hc : Memory.wf (c :: m)) (hd : Memory.wf (d :: m'))
    (h : ∀ a, Memory.byteAt (c :: m) a = Memory.byteAt (d :: m') a) : d.1 ≤ c.1 := by
  by_contra hlt
  obtain ⟨hne, -, -⟩ := wf_cons hc
  obtain ⟨-, habove, -⟩ := wf_cons hd
  have hread := h c.1
  rw [byteAt_head, byteAt_eq_unlisted_of_lt (by
    intro e he
    rcases List.mem_cons.mp he with rfl | he
    · omega
    · exact (Nat.lt_of_not_le hlt).trans (habove e he))] at hread
  exact hne hread

/-- Settles O7, by induction on the lists: first cells of two canonical memories that read alike agree in address and
byte, and so the lists without them read alike too (log entry 4). -/
theorem canonicalMemoryIsUnique : Obligations.CanonicalMemoryIsUnique := by
  intro m
  induction m with
  | nil =>
    rintro (_ | ⟨d, m'⟩) - hd h
    · rfl
    · obtain ⟨hne, -, -⟩ := wf_cons hd
      exact absurd ((byteAt_head d m').symm.trans (h d.1).symm) hne
  | cons c m ih =>
    rintro (_ | ⟨d, m'⟩) hc hd h
    · obtain ⟨hne, -, -⟩ := wf_cons hc
      exact absurd ((byteAt_head c m).symm.trans (h c.1)) hne
    · obtain ⟨-, hcabove, hm⟩ := wf_cons hc
      obtain ⟨-, hdabove, hm'⟩ := wf_cons hd
      have haddr : c.1 = d.1 := (head_le_of_byteAt_eq hd hc fun a => (h a).symm).antisymm (head_le_of_byteAt_eq hc hd h)
      have hbyte : c.2 = d.2 := by rw [← byteAt_head c m, h, haddr, byteAt_head]
      have htail : ∀ a, Memory.byteAt m a = Memory.byteAt m' a := fun a => by
        by_cases ha : c.1 = a
        · rw [byteAt_eq_unlisted_of_lt (ha ▸ hcabove), byteAt_eq_unlisted_of_lt (ha ▸ haddr ▸ hdabove)]
        · have hread := h a
          rwa [byteAt_cons, byteAt_cons, ← haddr, if_neg ha, if_neg ha] at hread
      rw [ih m' hm hm' htail, Prod.ext haddr hbyte]

end Sys2Proof.Proofs

/-! Registers and the ALU (spec 10_state.md R13, R14; 43_alu_mul.md R105 to R108), and the load's bound
(70_reset_and_hazards.md R162). -/

namespace Sys2Proof.Proofs

open Sys2Proof.Machine Sys2Proof.Laws

/-- Settles O4: the two answers of each accessor, on each side of index 8 (10_state.md R13, decision D7). -/
theorem registerAccessIsBoundsChecked : Obligations.RegisterAccessIsBoundsChecked := by
  intro i v s
  refine ⟨fun hi => ⟨regRead_error s hi, regWrite_error v s hi⟩, fun hi => ⟨regRead_ok s hi, _, regWrite_ok v s hi, ?_,
    fun r hr hne => ?_, rfl, rfl, rfl, rfl⟩⟩
  · simp
  · exact Vector.getElem_set_ne hi hr hne.symm

/-- The result register, for an operation of the known set and registers that exist; all else is as before
(43_alu_mul.md R105). -/
theorem alu_completes {op : AluOperation} {f : Nat → Nat → Nat} {a b : Byte} (s : State) (hf : aluOp op = some f)
    (ha : a.toNat < 8) (hb : b.toNat < 8) :
    ∃ t, alu op a b s = .ok t ∧ t.x[a.toNat].toNat = f s.x[a.toNat].toNat s.x[b.toNat].toNat % 256 ∧
      (∀ r (hr : r < 8), r ≠ a.toNat → t.x[r] = s.x[r]) ∧
      t.pc = s.pc ∧ t.run = s.run ∧ t.mem = s.mem ∧ t.out = s.out := by
  rw [alu_known a b s hf, dif_pos ha, dif_pos hb]
  refine ⟨_, rfl, ?_, fun r hr hne => ?_, rfl, rfl, rfl, rfl⟩
  · simp
  · exact Vector.getElem_set_ne ha hr hne.symm

/-- Settles O11: the name is checked first, then `alu_known`'s checks of `a` and `b`, then `alu_completes` at each of the
two known operations (43_alu_mul.md R105; decisions D6, D12). -/
theorem aluContract : Obligations.AluContract := by
  intro a b s
  refine ⟨fun n => alu_unknown a b s rfl, fun op hop => ?_⟩
  obtain ⟨f, hf⟩ : ∃ f, aluOp op = some f := by rcases hop with rfl | rfl <;> exact ⟨_, rfl⟩
  refine ⟨fun ha => ?_, fun ha hb => ?_, fun ha hb => ?_⟩
  · rw [alu_known a b s hf, dif_neg ha.not_gt]
  · rw [alu_known a b s hf, dif_pos ha, dif_neg hb.not_gt]
  · obtain ⟨t, ht, hresult, hframe⟩ := alu_completes s hf ha hb
    refine ⟨t, ht, ?_, ?_, hframe⟩
    · rintro rfl
      cases hf
      exact hresult
    · rintro rfl
      cases hf
      exact hresult

/-- Settles O10: the length test is the load's only one (70_reset_and_hazards.md R162, decision D14). -/
theorem loadRefusesLongPrograms : Obligations.LoadRefusesLongPrograms := by
  intro S p
  constructor
  · intro hnone
    by_contra hle
    rw [launch_eq_some S (Nat.le_of_not_lt hle)] at hnone
    cases hnone
  · exact fun hlong => if_pos hlong

end Sys2Proof.Proofs

/-! Where an instruction traps, and what it changes: facts about `exec` for all six instructions (spec 10_state.md R15;
files 41 to 44). -/

namespace Sys2Proof.Proofs

open Sys2Proof.Machine Sys2Proof.Laws

/-- The register operands, in the order in which a handler checks them (30_encoding.md R53, decision D6). -/
def registerOperands : Instr → List Byte
  | .ldi a _ => [a]
  | .prn a => [a]
  | .hlt => []
  | .mul a b => [a, b]
  | .push a => [a]
  | .pop a => [a]

/-- The register operand an instruction traps on: the first that names no register. -/
def badRegister (i : Instr) : Option Byte := (registerOperands i).find? (fun r => !regOk r)

/-- An instruction is well formed exactly when it has no register operand to trap on. -/
theorem badRegister_eq_none_iff (i : Instr) : badRegister i = none ↔ i.WellFormed := by
  cases i <;> simp [badRegister, registerOperands, Instr.WellFormed, Instr.wf]

/-- An operand an instruction traps on is an index of 8 or more: its first operand, or MUL's second. -/
theorem badRegister_eq_some {i : Instr} {j : Byte} (h : badRegister i = some j) :
    8 ≤ j.toNat ∧ (i.operands.head? = some j ∨ ∃ a, i = .mul a j) := by
  have hbad := List.find?_some h
  have hmem := List.mem_of_find?_eq_some h
  refine ⟨by simpa [regOk] using hbad, ?_⟩
  cases i <;> simp [registerOperands, Instr.operands] at hmem ⊢ <;> tauto

/-- An ill-formed instruction records the index it traps on, and changes nothing else (10_state.md R13, decision D5). -/
theorem exec_of_badRegister {i : Instr} {j : Byte} (s : State) (h : badRegister i = some j) :
    exec i s = .next { s with run := .faulted (.registerIndexOutOfRange j) } := by
  cases i with
  | hlt => cases h
  | ldi a | prn a | push a | pop a =>
    obtain ⟨ha, rfl⟩ : 8 ≤ a.toNat ∧ a = j := by simpa [badRegister, registerOperands, regOk] using h
    simp only [exec_ldi, exec_prn, exec_push, exec_pop, dif_neg ha.not_gt, raise_eq]
  | mul a b =>
    rw [exec_mul]
    by_cases ha : a.toNat < 8
    · obtain ⟨hb, rfl⟩ : 8 ≤ b.toNat ∧ b = j := by simpa [badRegister, registerOperands, regOk, ha] using h
      rw [dif_pos ha, dif_neg hb.not_gt, raise_eq]
    · obtain rfl : a = j := by simpa [badRegister, registerOperands, regOk, ha] using h
      rw [dif_neg ha, raise_eq]

/-- A well-formed instruction completes from every state, past its bytes; HLT alone changes the run state. -/
theorem exec_of_wf {i : Instr} (s : State) (h : i.WellFormed) : ∃ t, exec i s = .next t ∧
    t.pc = s.pc + (encode i).length ∧ t.run = if i = .hlt then .halted else s.run := by
  cases i with
  | hlt => exact ⟨_, exec_hlt s, rfl, rfl⟩
  | ldi a | prn a | push a | pop a =>
    have ha : a.toNat < 8 := (regOk_iff a).mp h
    simp only [exec_ldi, exec_prn, exec_push, exec_pop, dif_pos ha]
    exact ⟨_, rfl, rfl, rfl⟩
  | mul a b =>
    obtain ⟨ha, hb⟩ : a.toNat < 8 ∧ b.toNat < 8 := by simpa [Instr.WellFormed, Instr.wf, regOk] using h
    rw [exec_mul, dif_pos ha, dif_pos hb]
    exact ⟨_, rfl, rfl, rfl⟩

/-- Everything an executed instruction can do to the run state and the pc: it traps on a register operand and changes
nothing else, or it is well formed and completes. -/
theorem exec_next {i : Instr} {s t : State} (h : exec i s = .next t) :
    (∃ j, badRegister i = some j ∧ t = { s with run := .faulted (.registerIndexOutOfRange j) }) ∨
      (i.WellFormed ∧ t.pc = s.pc + (encode i).length ∧ t.run = if i = .hlt then .halted else s.run) := by
  cases hbad : badRegister i with
  | some j =>
    rw [exec_of_badRegister s hbad] at h
    cases h
    exact .inl ⟨j, rfl, rfl⟩
  | none =>
    have hwf := (badRegister_eq_none_iff i).mp hbad
    obtain ⟨u, hu, heffect⟩ := exec_of_wf s hwf
    obtain rfl : u = t := by rw [hu] at h; cases h; rfl
    exact .inr ⟨hwf, heffect⟩

/-- A well-formed instruction other than HLT keeps the run state. -/
theorem exec_run_of_wf {i : Instr} {s t : State} (h : exec i s = .next t) (hwf : i.WellFormed) (hi : i ≠ .hlt) :
    t.run = s.run := by
  obtain ⟨j, hbad, -⟩ | ⟨-, -, hrun⟩ := exec_next h
  · rw [(badRegister_eq_none_iff i).mpr hwf] at hbad
    cases hbad
  · rwa [if_neg hi] at hrun

/-- An ill-formed instruction records the index it traps on. -/
theorem exec_next_of_not_wf {i : Instr} {s t : State} (h : exec i s = .next t) (hwf : i.wf = false) :
    ∃ j, badRegister i = some j ∧ t = { s with run := .faulted (.registerIndexOutOfRange j) } := by
  obtain htrap | ⟨htrue, -⟩ := exec_next h
  · exact htrap
  · cases hwf.symm.trans htrue

/-- The registers a handler writes, by the table of 10_state.md R15. -/
def writes : Instr → Nat → Bool
  | .ldi a _, r => r == a.toNat
  | .prn _, _ => false
  | .hlt, _ => false
  | .mul a _, r => r == a.toNat
  | .push _, r => r == 7
  | .pop a, r => r == 7 || r == a.toNat

/-- A register the table does not name as written keeps its value (10_state.md R15). -/
theorem exec_keeps_register {i : Instr} {s t : State} {r : Nat} (h : exec i s = .next t) (hw : writes i r = false)
    (hr : r < 8) : t.x[r] = s.x[r] := by
  cases i with
  | hlt => cases h; rfl
  | prn a =>
    rw [exec_prn] at h
    split_ifs at h <;> cases h <;> rfl
  | ldi a b =>
    have hne : r ≠ a.toNat := by simpa [writes] using hw
    rw [exec_ldi] at h
    split_ifs at h with ha <;> cases h
    · exact Vector.getElem_set_ne ha hr hne.symm
    · rfl
  | mul a b =>
    have hne : r ≠ a.toNat := by simpa [writes] using hw
    rw [exec_mul] at h
    split_ifs at h with ha hb <;> cases h
    · exact Vector.getElem_set_ne ha hr hne.symm
    · rfl
    · rfl
  | push a =>
    have hsp : r ≠ 7 := by simpa [writes] using hw
    rw [exec_push] at h
    split_ifs at h <;> cases h
    · exact Vector.getElem_set_ne (by decide) hr hsp.symm
    · rfl
  | pop a =>
    obtain ⟨hsp, hne⟩ : r ≠ 7 ∧ r ≠ a.toNat := by simpa [writes] using hw
    rw [exec_pop] at h
    split_ifs at h with ha <;> cases h
    · exact (Vector.getElem_set_ne (by decide) hr hsp.symm).trans (Vector.getElem_set_ne ha hr hne.symm)
    · rfl

/-- No instruction but PUSH writes memory (20_memory.md R34). -/
theorem exec_keeps_mem {i : Instr} {s t : State} (h : exec i s = .next t) (hi : ∀ a, i ≠ .push a) : t.mem = s.mem := by
  cases i with
  | hlt => cases h; rfl
  | push a => exact absurd rfl (hi a)
  | ldi | prn | mul | pop =>
    simp only [exec_ldi, exec_prn, exec_mul, exec_pop, raise_eq] at h
    split_ifs at h <;> cases h <;> rfl

/-- PUSH stores one byte at the decremented SP, or traps and stores none (44_stack_push_pop.md R116). -/
theorem exec_push_mem {a : Byte} {s t : State} (h : exec (.push a) s = .next t) :
    t.mem = s.mem ∨ ∃ v, t.mem = s.mem.store (pushAddr s) v := by
  rw [exec_push] at h
  split_ifs at h
  · cases h; exact .inr ⟨_, rfl⟩
  · cases h; exact .inl rfl

/-- Only the cell at the decremented SP can change under PUSH. -/
theorem exec_push_byteAt {a : Byte} {s t : State} {addr : Nat} (h : exec (.push a) s = .next t)
    (haddr : addr ≠ pushAddr s) : t.mem.byteAt addr = s.mem.byteAt addr := by
  obtain hmem | ⟨v, hmem⟩ := exec_push_mem h
  · rw [hmem]
  · rw [hmem, byteAt_store, if_neg haddr.symm]

/-- No instruction but PRN and HLT gives output (10_state.md R22). -/
theorem exec_keeps_out {i : Instr} {s t : State} (h : exec i s = .next t) (hprn : ∀ a, i ≠ .prn a) (hhlt : i ≠ .hlt) :
    t.out = s.out := by
  cases i with
  | hlt => exact absurd rfl hhlt
  | prn a => exact absurd rfl (hprn a)
  | ldi | mul | push | pop =>
    simp only [exec_ldi, exec_mul, exec_push, exec_pop, raise_eq] at h
    split_ifs at h <;> cases h <;> rfl

/-- PRN appends the value of its register, or traps and appends nothing (41_ldi_prn.md R91). -/
theorem exec_prn_out {a : Byte} {s t : State} (h : exec (.prn a) s = .next t) :
    t.out = s.out ∨ ∃ ha : a.toNat < 8, t.out = s.out ++ [.print s.x[a.toNat]] := by
  rw [exec_prn] at h
  split_ifs at h with ha
  · cases h; exact .inr ⟨ha, rfl⟩
  · cases h; exact .inl rfl

end Sys2Proof.Proofs

/-! Completion and frames of the six instructions (spec files 41 to 44). -/

namespace Sys2Proof.Proofs

open Sys2Proof.Machine Sys2Proof.Laws

/-- Settles O18: `exec_of_wf` (10_state.md R18, R20). -/
theorem wellFormedInstructionsComplete : Obligations.WellFormedInstructionsComplete :=
  fun _ s hwf => exec_of_wf s hwf

/-- Settles O19: LDI and MUL write their first operand's register and nothing else by the table, and trap without effect
(10_state.md R15, decision D5). -/
theorem ldiMulFrame : Obligations.LdiMulFrame := by
  intro i a b s t hi h
  have hpush : ∀ c, i ≠ .push c := by rcases hi with rfl | rfl <;> nofun
  have hprn : ∀ c, i ≠ .prn c := by rcases hi with rfl | rfl <;> nofun
  have hhlt : i ≠ .hlt := by rcases hi with rfl | rfl <;> nofun
  refine ⟨fun r hr hne => exec_keeps_register h ?_ hr, fun addr => by rw [exec_keeps_mem h hpush],
    exec_keeps_out h hprn hhlt, fun hwf => exec_run_of_wf h hwf hhlt, fun hwf => ?_⟩
  · rcases hi with rfl | rfl <;> simpa [writes] using hne
  · obtain ⟨j, -, rfl⟩ := exec_next_of_not_wf h hwf
    exact ⟨rfl, rfl, j, rfl⟩

/-- Settles O20: PRN and HLT write no register and no memory by the table, and append to the output if anything
(10_state.md R15, R22). -/
theorem prnHltFrame : Obligations.PrnHltFrame := by
  rintro i a s t (rfl | rfl) h
  · refine ⟨fun r hr => exec_keeps_register h rfl hr, fun addr => by rw [exec_keeps_mem h nofun], ?_,
      fun _ hwf => exec_run_of_wf h hwf nofun, fun hwf => ?_⟩
    · obtain hout | ⟨ha, hout⟩ := exec_prn_out h
      · exact hout ▸ List.prefix_rfl
      · exact hout ▸ List.prefix_append _ _
    · obtain ⟨j, hbad, rfl⟩ := exec_next_of_not_wf h hwf
      obtain ⟨-, rfl⟩ : _ ∧ a = j := by simpa [badRegister, registerOperands] using hbad
      exact ⟨rfl, rfl, rfl⟩
  · cases h
    exact ⟨fun _ _ => rfl, fun _ => rfl, List.prefix_append _ _, nofun, nofun⟩

/-- Settles O21: PUSH writes SP by the table, and the one cell of `exec_push_byteAt` (44_stack_push_pop.md R116). -/
theorem pushFrame : Obligations.PushFrame := by
  intro a s t h
  refine ⟨fun r hr hne => exec_keeps_register h (by simpa [writes] using hne) hr,
    fun addr haddr => exec_push_byteAt h haddr, exec_keeps_out h nofun nofun,
    fun ha => exec_run_of_wf h ((regOk_iff a).mpr ha) nofun, fun ha => ?_⟩
  rw [exec_push, dif_neg ha.not_gt] at h
  cases h
  exact ⟨rfl, rfl, rfl, rfl⟩

/-- Settles O22: POP writes its operand's register and SP by the table, and no memory (44_stack_push_pop.md R117). -/
theorem popFrame : Obligations.PopFrame := by
  intro a s t h
  refine ⟨fun r hr hne hsp => exec_keeps_register h (by simp [writes, hne, hsp]) hr,
    fun addr => by rw [exec_keeps_mem h nofun], exec_keeps_out h nofun nofun,
    fun ha => exec_run_of_wf h ((regOk_iff a).mpr ha) nofun, fun ha => ?_⟩
  rw [exec_pop, dif_neg ha.not_gt] at h
  cases h
  exact ⟨rfl, rfl, rfl⟩

end Sys2Proof.Proofs

/-! The six instructions in memory and executed: what LDI, PRN, MUL, PUSH and POP do (spec files 41, 43 and 44). -/

namespace Sys2Proof.Proofs

open Sys2Proof.Machine Sys2Proof.Laws

/-- No instruction has more than two operands (30_encoding.md R56). -/
theorem operands_length_le (i : Instr) : i.operands.length ≤ 2 := by cases i <;> simp [Instr.operands]

/-- An opcode with its `n` operand bytes inside memory is fetched as their instruction (40_engine.md R71). -/
theorem fetchInstr_of_opcodeAt {s : State} {i : Instr} {n : Nat} (hend : s.pc + n ≤ 255)
    (hop : opcodeAt s = opcode i.handler)
    (hops : i.operands = (List.range n).map fun k => s.mem.byteAt (s.pc + 1 + k)) : fetchInstr s = .ok i := by
  have hlen : 255 - s.pc = n + (255 - s.pc - n) := by omega
  have hbytes := codeBytes_of_pc_lt (s := s) (by omega)
  rw [hlen, List.range_add, List.map_append, ← hops, hop] at hbytes
  exact fetchInstr_of_codeBytes hbytes

/-- An opcode of the table in memory, whose instruction takes the `n` bytes after it: the instruction is executed if
they lie inside memory, and their fetch faults if they do not (40_engine.md R71, R74). -/
theorem step_of_opcodeAt {s : State} {i : Instr} {n : Nat} (hrun : s.run = .running) (hpc : s.pc ≤ 255)
    (hop : opcodeAt s = opcode i.handler)
    (hops : i.operands = (List.range n).map fun k => s.mem.byteAt (s.pc + 1 + k)) :
    step s = if s.pc ≤ 255 - n then exec i s
      else .next { s with run := .faulted (.memoryAccessOutOfRange 256) } := by
  have hn : i.operands.length = n := by simp [hops]
  have hle := operands_length_le i
  have hcount : operandCount (opcodeAt s) = n := by rw [hop, operandCount_opcode, hn]
  split_ifs with hend
  · exact step_of_instr hrun (fetchInstr_of_opcodeAt (by omega) hop hops)
  · exact operandFetchPrecedesLookup s hrun hpc (by omega) (by omega)

/-- Settles O12: `exec_ldi` on both sides of index 8, and its fetch (41_ldi_prn.md R90). -/
theorem ldiLoadsImmediate : Obligations.LdiLoadsImmediate := by
  refine ⟨fun a b => rfl, fun a b s ha => ?_, fun a b s ha => ?_, fun s hrun hpc hop => ?_⟩
  · rw [exec_ldi, dif_pos ha]; rfl
  · rw [exec_ldi, dif_neg ha.not_gt, raise_eq]
  · exact step_of_opcodeAt (i := .ldi _ _) (n := 2) hrun hpc hop rfl

/-- Settles O13: `exec_prn` on both sides of index 8, and its fetch (41_ldi_prn.md R91). -/
theorem prnPrintsRegister : Obligations.PrnPrintsRegister := by
  refine ⟨fun a => rfl, fun a s ha => ?_, fun a s ha => ?_, fun s hrun hpc hop => ?_⟩
  · rw [exec_prn, dif_pos ha]; rfl
  · rw [exec_prn, dif_neg ha.not_gt, raise_eq]
  · exact step_of_opcodeAt (i := .prn _) (n := 1) hrun hpc hop rfl

/-- Settles O15: `exec_mul` where both indices are good, where `a` is bad, and where `b` alone is; and its fetch
(43_alu_mul.md R109, decision D6). -/
theorem mulMultiplies : Obligations.MulMultiplies := by
  refine ⟨fun a b => rfl, fun a b s ha hb => ?_, fun a b s ha => ?_, fun a b s ha hb => ?_, fun s hrun hpc hop => ?_⟩
  · rw [exec_mul, dif_pos ha, dif_pos hb]
    refine ⟨_, rfl, ?_, fun r hr hne => Vector.getElem_set_ne ha hr hne.symm, rfl, rfl, rfl, rfl⟩
    simp
  · rw [exec_mul, dif_neg ha.not_gt, raise_eq]
  · rw [exec_mul, dif_pos ha, dif_neg hb.not_gt, raise_eq]
  · exact step_of_opcodeAt (i := .mul _ _) (n := 2) hrun hpc hop rfl

/-- An index byte is SP's exactly when it is 7. -/
theorem toNat_eq_seven_iff (a : Byte) : a.toNat = 7 ↔ a = 7 := ⟨fun h => BitVec.eq_of_toNat_eq h, fun h => h ▸ rfl⟩

/-- The SP decrement as a number (44_stack_push_pop.md R118, decision D9). -/
theorem toNat_sub_one (v : Byte) : (v - 1).toNat = (v.toNat + 255) % 256 := by simp [BitVec.toNat_sub, Nat.add_comm]

/-- What an index byte names after a write of SP: the value written for 7, any other register as before (10_state.md R16). -/
theorem set_sp_getElem (x : Vector Byte 8) (v : Byte) {a : Byte} (ha : a.toNat < 8) :
    (x.set 7 v)[a.toNat] = if a = 7 then v else x[a.toNat] := by
  rw [Vector.getElem_set]
  simp only [eq_comm (a := 7), toNat_eq_seven_iff]

/-- PUSH of an existing register: the cell at the decremented SP gets the register as it is then (decision D10). -/
theorem exec_push_completes {a : Byte} (s : State) (ha : a.toNat < 8) : ∃ t, exec (.push a) s = .next t ∧
    t.x = s.x.set 7 (s.x[7] - 1) ∧ t.mem = s.mem.store (s.x[7] - 1).toNat t.x[a.toNat] ∧
    t.pc = s.pc + 2 ∧ t.run = s.run ∧ t.out = s.out := by
  rw [exec_push, dif_pos ha, pushAddr_eq]
  exact ⟨_, rfl, rfl, rfl, rfl, rfl, rfl⟩

/-- POP into an existing register: the load, then the increment of register 7 as the load left it (decision D10). -/
theorem exec_pop_completes {a : Byte} (s : State) (ha : a.toNat < 8) : ∃ t, exec (.pop a) s = .next t ∧
    t.x = (s.x.set a.toNat (s.mem.byteAt s.x[7].toNat)).set 7
      ((s.x.set a.toNat (s.mem.byteAt s.x[7].toNat))[7] + 1) ∧
    t.mem = s.mem ∧ t.pc = s.pc + 2 ∧ t.run = s.run ∧ t.out = s.out := by
  rw [exec_pop, dif_pos ha]
  exact ⟨_, rfl, rfl, rfl, rfl, rfl, rfl⟩

/-- Settles O16: the effect of `exec_push_completes`, the trap, and the fetch (44_stack_push_pop.md R116). -/
theorem pushStoresRegister : Obligations.PushStoresRegister := by
  refine ⟨fun a => rfl, fun a s ha => ?_, fun a s ha => ?_, fun s hrun hpc hop => ?_⟩
  · obtain ⟨t, hexec, hx, hmem, hframe⟩ := exec_push_completes s ha
    have hsp : t.x[7] = s.x[7] - 1 := by simp [hx]
    refine ⟨t, hexec, by rw [hsp, toNat_sub_one], ?_,
      fun r hr hne => exec_keeps_register hexec (by simpa [writes] using hne) hr, hframe⟩
    rw [hmem, hsp, byteAt_store, if_pos rfl]
    simp only [hx, set_sp_getElem _ _ ha]
  · rw [exec_push, dif_neg ha.not_gt, raise_eq]
  · exact step_of_opcodeAt (i := .push _) (n := 1) hrun hpc hop rfl

/-- Settles O17: the effect of `exec_pop_completes`, for `r7` and for another register, the trap, and the fetch
(44_stack_push_pop.md R117). -/
theorem popLoadsRegister : Obligations.PopLoadsRegister := by
  refine ⟨fun a => rfl, fun a s ha => ?_, fun a s ha => ?_, fun s hrun hpc hop => ?_⟩
  · obtain ⟨t, hexec, hx, -, hframe⟩ := exec_pop_completes s ha
    refine ⟨t, hexec, fun hne => ?_, ?_, hframe⟩
    · have hne7 : a.toNat ≠ 7 := mt (toNat_eq_seven_iff a).mp hne
      simp [hx, Vector.getElem_set_ne, hne7, hne7.symm]
    · rintro rfl
      simp [hx]
  · rw [exec_pop, dif_neg ha.not_gt, raise_eq]
  · exact step_of_opcodeAt (i := .pop _) (n := 1) hrun hpc hop rfl

end Sys2Proof.Proofs

/-! Every step of the machine: the fault it reports, and what it leaves of the pc, the registers, memory and the output
(spec 60_exceptions.md; 10_state.md R15, R18, R22; 40_engine.md R70). -/

namespace Sys2Proof.Proofs

open Sys2Proof.Machine Sys2Proof.Laws

/-- Every instruction answers a next state, trapped or completed (40_engine.md R80). -/
theorem exec_total (i : Instr) (s : State) : ∃ t, exec i s = .next t := by
  cases hbad : badRegister i with
  | some j => exact ⟨_, exec_of_badRegister s hbad⟩
  | none =>
    obtain ⟨t, ht, -⟩ := exec_of_wf s ((badRegister_eq_none_iff i).mp hbad)
    exact ⟨t, ht⟩

/-- Every RUNNING machine has a next state: the instruction's, or the one that records the fetch's fault (40_engine.md
R70). -/
theorem step_total {s : State} (hrun : s.run = .running) : ∃ t, step s = .next t := by
  cases hf : fetchInstr s with
  | ok i => rw [step_of_instr hrun hf]; exact exec_total i s
  | error c => exact ⟨_, step_of_fault hrun hf⟩

/-- Settles O27: `step_total` in RUNNING, and what `noStep` answers in the terminal states (40_engine.md R70). -/
theorem hasStepExactlyWhenRunning : Obligations.HasStepExactlyWhenRunning := by
  intro s
  refine ⟨⟨fun ⟨t, h⟩ => running_of_step h, step_total⟩, fun hrun => ?_, fun c hrun => ?_⟩
  · simp only [step, noStep, hrun]
  · simp only [step, noStep, hrun]

/-- A fetched instruction lies inside memory. -/
theorem fetchInstr_end_le {s : State} {i : Instr} (h : fetchInstr s = .ok i) : s.pc + (encode i).length ≤ 256 := by
  obtain ⟨rest, hdec⟩ := fetchInstr_eq_ok_iff.mp h
  have hlen := congrArg List.length (eq_encode_append_of_decode hdec)
  have hpos : 0 < (encode i).length := by simp [encode]
  simp only [codeBytes, List.length_map, List.length_range, List.length_append] at hlen
  omega

/-- The bytes of a fetched instruction stand at the pc, in order. -/
theorem byteAt_of_fetchInstr {s : State} {i : Instr} (h : fetchInstr s = .ok i) (k : Nat)
    (hk : k < (encode i).length) : s.mem.byteAt (s.pc + k) = (encode i)[k] := by
  obtain ⟨rest, hdec⟩ := fetchInstr_eq_ok_iff.mp h
  have hbytes := eq_encode_append_of_decode hdec
  have hend := fetchInstr_end_le h
  have hread : (codeBytes s)[k]? = some (s.mem.byteAt (s.pc + k)) := by
    simp [codeBytes, List.getElem?_range (show k < 256 - s.pc by omega)]
  rw [hbytes, List.getElem?_append_left hk, List.getElem?_eq_getElem hk, Option.some.injEq] at hread
  exact hread.symm

/-- The opcode's count is that of a fetched instruction. -/
theorem operandCount_of_fetchInstr {s : State} {i : Instr} (h : fetchInstr s = .ok i) :
    1 + operandCount (opcodeAt s) = (encode i).length := by
  rw [opcodeAt_of_fetchInstr h, operandCount_opcode, encode, List.length_cons, Nat.add_comm]

/-- No opcode of the table has a count of 3 (30_encoding.md R56). -/
theorem dispatch_of_count_three {ir : Byte} (h3 : operandCount ir = 3) : dispatch ir = none := by
  rw [dispatch_none]
  refine ⟨?_, ?_, ?_, ?_, ?_, ?_⟩ <;> rintro rfl <;> revert h3 <;> decide

/-- With its operands inside memory, an opcode of the dispatch table is fetched as an instruction (40_engine.md R75). -/
theorem fetchInstr_of_dispatch {s : State} (hcount : operandCount (opcodeAt s) ≠ 3)
    (hend : s.pc + operandCount (opcodeAt s) ≤ 255) (hd : dispatch (opcodeAt s) ≠ none) :
    ∃ i, fetchInstr s = .ok i := by
  have hpc : ¬ 256 ≤ s.pc := by omega
  have htop : ¬ 256 ≤ s.pc + operandCount (opcodeAt s) := by omega
  rw [fetchInstr_eq, if_neg hpc, if_neg hcount, if_neg htop]
  obtain ⟨i, hi⟩ := Option.ne_none_iff_exists'.mp
    (mt (lookup_ne_none (ops := (List.range (operandCount (opcodeAt s))).map fun k => s.mem.byteAt (s.pc + 1 + k))
      (by simp)).mp hd)
  exact ⟨i, by rw [hi]; rfl⟩

/-- Everything a fetch from a pc of at most 256 can raise: the address 256, or the opcode at the pc where the dispatch
table has no entry (60_exceptions.md R131, R132). -/
theorem fetchInstr_error {s : State} {c : FaultCause} (hpc : s.pc ≤ 256) (h : fetchInstr s = .error c) :
    c = .memoryAccessOutOfRange 256 ∨ c = .unsupportedInstruction (opcodeAt s) ∧ dispatch (opcodeAt s) = none := by
  by_cases hin : 256 ≤ s.pc
  · rw [fetchInstr_of_pc_ge hin] at h
    cases h
    exact .inl (by rw [hpc.antisymm hin])
  by_cases h3 : operandCount (opcodeAt s) = 3
  · rw [fetchInstr_of_count_three (by omega) h3] at h
    cases h
    exact .inr ⟨rfl, dispatch_of_count_three h3⟩
  have hle := operandCount_le (opcodeAt s)
  by_cases hend : 256 ≤ s.pc + operandCount (opcodeAt s)
  · rw [fetchInstr_of_operand_missing (by omega) (by omega) hend] at h
    cases h
    exact .inl rfl
  by_cases hd : dispatch (opcodeAt s) = none
  · rw [fetchInstr_of_dispatch_none (by omega) (by omega) hd] at h
    cases h
    exact .inr ⟨rfl, hd⟩
  · obtain ⟨i, hi⟩ := fetchInstr_of_dispatch h3 (by omega) hd
    rw [hi] at h
    cases h

/-- The only fault that executing an instruction in RUNNING records is of the register operand it traps on. -/
theorem exec_faulted {i : Instr} {s t : State} {c : FaultCause} (hrun : s.run = .running) (h : exec i s = .next t)
    (hc : t.run = .faulted c) : ∃ j, badRegister i = some j ∧ c = .registerIndexOutOfRange j := by
  obtain ⟨j, hbad, rfl⟩ | ⟨-, -, hkeep⟩ := exec_next h
  · cases hc
    exact ⟨j, hbad, rfl⟩
  · rw [hc, hrun] at hkeep
    split at hkeep <;> cases hkeep

/-- A well-formed instruction leaves a RUNNING machine safe. -/
theorem safe_of_exec_wf {i : Instr} {s t : State} (hrun : s.run = .running) (h : exec i s = .next t)
    (hwf : i.WellFormed) : Safe t := by
  intro c hc
  obtain ⟨j, hbad, -⟩ := exec_faulted hrun h hc
  rw [(badRegister_eq_none_iff i).mpr hwf] at hbad
  cases hbad

/-- Settles O34: the two faults of a fetch, and the one trap of an instruction, whose operands stand behind the opcode
(60_exceptions.md R130 to R134). -/
theorem faultsFitTheInstruction : Obligations.FaultsFitTheInstruction := by
  intro s t c hpc hstep hc
  obtain ⟨hrun, ⟨i, hf, he⟩ | ⟨c', hf, rfl⟩⟩ := step_next hstep
  · obtain ⟨j, hbad, rfl⟩ := exec_faulted hrun he hc
    obtain ⟨hj, hoperand⟩ := badRegister_eq_some hbad
    refine ⟨nofun, nofun, ?_, nofun⟩
    rintro _ ⟨⟩
    refine ⟨hj, ?_⟩
    obtain hfirst | ⟨a, rfl⟩ := hoperand
    · obtain ⟨ops, hops⟩ := List.head?_eq_some_iff.mp hfirst
      refine .inl ?_
      rw [byteAt_of_fetchInstr hf 1 (by simp [encode, hops])]
      simp [encode, hops]
    · exact .inr ⟨opcodeAt_of_fetchInstr hf, (byteAt_of_fetchInstr hf 2 (by simp [encode, Instr.operands])).symm⟩
  · cases hc
    obtain rfl | ⟨rfl, hd⟩ := fetchInstr_error hpc hf
    · refine ⟨?_, nofun, nofun, nofun⟩
      rintro _ ⟨⟩
      rfl
    · refine ⟨nofun, ?_, nofun, nofun⟩
      rintro _ ⟨⟩
      exact ⟨rfl, hd⟩

/-- Settles O40: a completing step executed an instruction and moved past its bytes, which lie inside memory; a faulting
one changed the run state only (10_state.md R18, decision D5). -/
theorem pcAdvancesByWidth : Obligations.PcAdvancesByWidth := by
  intro s t hstep
  obtain ⟨hrun, ⟨i, hf, he⟩ | ⟨c, -, rfl⟩⟩ := step_next hstep
  · obtain ⟨j, hbad, rfl⟩ | ⟨hwf, hpc, -⟩ := exec_next he
    · exact ⟨fun hsafe => absurd rfl (hsafe _), fun _ => rfl⟩
    · refine ⟨fun _ => ?_, fun hunsafe => absurd (safe_of_exec_wf hrun he hwf) hunsafe⟩
      have hend := fetchInstr_end_le hf
      have hcount : t.pc = s.pc + 1 + operandCount (opcodeAt s) := by
        rw [hpc, ← operandCount_of_fetchInstr hf, Nat.add_assoc]
      refine ⟨hcount, by omega, fun hop => ?_, ?_, ?_⟩
      · rw [hcount, hop]; rfl
      · rintro (hop | hop | hop) <;> rw [hcount, hop] <;> rfl
      · rintro (hop | hop) <;> rw [hcount, hop] <;> rfl
  · exact ⟨fun hsafe => absurd rfl (hsafe _), fun _ => rfl⟩

end Sys2Proof.Proofs

/-! The priority of faults and the end of every run (spec 60_exceptions.md R136; 40_engine.md section 5). -/

namespace Sys2Proof.Proofs

open Sys2Proof.Machine Sys2Proof.Laws

/-- An index byte names no register from 8 on (10_state.md R13). -/
theorem regOk_eq_false_iff (a : Byte) : regOk a = false ↔ 8 ≤ a.toNat := by simp [regOk]

/-- The operand a fetched instruction traps on, read from memory: the byte after any opcode but HLT's, and behind MUL's
the next one (60_exceptions.md R136). -/
theorem badRegister_of_fetchInstr {s : State} {i : Instr} (h : fetchInstr s = .ok i) :
    badRegister i =
      if opcodeAt s ≠ 0x01 ∧ 8 ≤ (s.mem.byteAt (s.pc + 1)).toNat then some (s.mem.byteAt (s.pc + 1))
      else if opcodeAt s = 0xA2 ∧ 8 ≤ (s.mem.byteAt (s.pc + 2)).toNat then some (s.mem.byteAt (s.pc + 2))
      else none := by
  have hop := opcodeAt_of_fetchInstr h
  have hbyte := byteAt_of_fetchInstr h
  cases i with
  | hlt => simp [hop, badRegister, registerOperands, opcode, Instr.handler]
  | mul a b =>
    have ha : s.mem.byteAt (s.pc + 1) = a := hbyte 1 (by simp [encode, Instr.operands])
    have hb : s.mem.byteAt (s.pc + 2) = b := hbyte 2 (by simp [encode, Instr.operands])
    rw [hop, ha, hb]
    cases hreg : regOk a <;>
      simp [badRegister, registerOperands, opcode, Instr.handler, ← regOk_eq_false_iff, hreg]
  | ldi a | prn a | push a | pop a =>
    have ha : s.mem.byteAt (s.pc + 1) = a := hbyte 1 (by simp [encode, Instr.operands])
    rw [hop, ha]
    simp [badRegister, registerOperands, opcode, Instr.handler, ← regOk_eq_false_iff]

/-- A RUNNING machine's step whose fetch raises records the fault. -/
theorem run_of_fetch_error {s t : State} {c : FaultCause} (hstep : step s = .next t) (hf : fetchInstr s = .error c) :
    t.run = .faulted c := by
  rw [step_of_fault (running_of_step hstep) hf, raise_eq] at hstep
  cases hstep
  rfl

/-- Executing an instruction with a bad register operand records it. -/
theorem run_of_badRegister {i : Instr} {j : Byte} {s t : State} (h : exec i s = .next t) (hbad : badRegister i = some j) :
    t.run = .faulted (.registerIndexOutOfRange j) := by
  rw [exec_of_badRegister s hbad] at h
  cases h
  rfl

/-- Settles O32: the checks of the fetch in the engine's order, then the operands of the instruction fetched
(60_exceptions.md R136). -/
theorem faultPriority : Obligations.FaultPriority := by
  intro s hrun
  obtain ⟨t, ht⟩ := step_total hrun
  refine ⟨t, ht, ?_⟩
  by_cases hpc : 256 ≤ s.pc
  · rw [if_pos hpc]
    exact run_of_fetch_error ht (fetchInstr_of_pc_ge hpc)
  by_cases h3 : operandCount (opcodeAt s) = 3
  · rw [if_neg hpc, if_pos h3]
    exact run_of_fetch_error ht (fetchInstr_of_count_three (by omega) h3)
  rw [if_neg hpc, if_neg h3]
  have hle := operandCount_le (opcodeAt s)
  by_cases hend : 256 ≤ s.pc + operandCount (opcodeAt s)
  · have hmissing := run_of_fetch_error ht (fetchInstr_of_operand_missing (by omega) (by omega) hend)
    split_ifs
    · rw [hmissing, show s.pc + 1 = 256 by omega]
    · rw [hmissing, show s.pc + 2 = 256 by omega]
    all_goals omega
  rw [if_neg (by omega), if_neg (by omega)]
  by_cases hd : dispatch (opcodeAt s) = none
  · rw [if_pos hd]
    exact run_of_fetch_error ht (fetchInstr_of_dispatch_none (by omega) (by omega) hd)
  rw [if_neg hd]
  obtain ⟨i, hi⟩ := fetchInstr_of_dispatch h3 (by omega) hd
  have hbad := badRegister_of_fetchInstr hi
  rw [step_of_instr hrun hi] at ht
  split_ifs at hbad ⊢
  · exact run_of_badRegister ht hbad
  · exact run_of_badRegister ht hbad
  · exact safe_of_exec_wf hrun ht ((badRegister_eq_none_iff i).mp hbad)

/-- A step that stays RUNNING moves the pc by at least 2, inside memory and its end: HLT alone is one byte long. -/
theorem pc_of_step_running {s t : State} (hstep : step s = .next t) (ht : t.run = .running) :
    s.pc + 2 ≤ t.pc ∧ t.pc ≤ 256 := by
  obtain ⟨-, ⟨i, hf, he⟩ | ⟨c, -, rfl⟩⟩ := step_next hstep
  · obtain ⟨j, -, rfl⟩ | ⟨-, hpc, hkeep⟩ := exec_next he
    · cases ht
    · have hi : i ≠ .hlt := by
        rintro rfl
        cases ht.symm.trans hkeep
      have hend := fetchInstr_end_le hf
      have hlen : 2 ≤ (encode i).length := by
        cases i with
        | hlt => exact absurd rfl hi
        | ldi | prn | mul | push | pop => simp [encode, Instr.operands]
      omega
  · cases ht

/-- A run of `k + 1` steps is a step and a run of `k`. -/
theorem run_succ_of_step (M : Host.Core) {s t : M.State} (k : Nat) (h : M.step s = .next t) :
    M.run (k + 1) s = M.run k t := by
  rw [Host.Core.run, h]

/-- Settles O39, by induction on the bytes left: a step that stays RUNNING uses up two of them. -/
theorem everyRunEnds : Obligations.EveryRunEnds := by
  intro s
  induction hleft : 256 - s.pc using Nat.strong_induction_on generalizing s with
  | _ n ih =>
    intro hrun
    obtain ⟨t, ht⟩ := step_total hrun
    by_cases htrun : t.run = .running
    · obtain ⟨hadvance, hle⟩ := pc_of_step_running ht htrun
      obtain ⟨k, u, hk, hu, hended⟩ := ih (256 - t.pc) (by omega) t rfl htrun
      exact ⟨k + 1, u, by omega, (run_succ_of_step core k ht).trans hu, hended⟩
    · exact ⟨1, t, by omega, run_succ_of_step core 0 ht, htrun⟩

end Sys2Proof.Proofs

/-! What a step can change: registers, memory and output (spec 10_state.md R15, R22; 20_memory.md R34). -/

namespace Sys2Proof.Proofs

open Sys2Proof.Machine Sys2Proof.Laws

/-- Settles O41: a step that changes a register executed an instruction that writes it by the table, and whose bytes
stand at the pc (10_state.md R15). -/
theorem registersWrittenPerTable : Obligations.RegistersWrittenPerTable := by
  intro s t r hr hstep hne
  obtain ⟨-, ⟨i, hf, he⟩ | ⟨c, -, rfl⟩⟩ := step_next hstep
  · have hop := opcodeAt_of_fetchInstr hf
    have hbyte := byteAt_of_fetchInstr hf 1
    have hw : writes i r = true := by
      by_contra hw
      exact hne (exec_keeps_register he (Bool.eq_false_iff.mpr hw) hr)
    cases i with
    | prn | hlt => cases hw
    | ldi a b =>
      have ha : s.mem.byteAt (s.pc + 1) = a := hbyte (by simp [encode, Instr.operands])
      have hra : r = a.toNat := by simpa [writes] using hw
      exact .inl ⟨.inl hop, ha ▸ hra.symm⟩
    | mul a b =>
      have ha : s.mem.byteAt (s.pc + 1) = a := hbyte (by simp [encode, Instr.operands])
      have hra : r = a.toNat := by simpa [writes] using hw
      exact .inl ⟨.inr (.inl hop), ha ▸ hra.symm⟩
    | push a => exact .inr ⟨.inl hop, by simpa [writes] using hw⟩
    | pop a =>
      have ha : s.mem.byteAt (s.pc + 1) = a := hbyte (by simp [encode, Instr.operands])
      obtain hsp | hra : r = 7 ∨ r = a.toNat := by simpa [writes] using hw
      · exact .inr ⟨.inr hop, hsp⟩
      · exact .inl ⟨.inr (.inr hop), ha ▸ hra.symm⟩
  · exact absurd rfl hne

/-- Settles O43: a step that changes memory executed PUSH, and changed the cell at the decremented SP (20_memory.md
R34). -/
theorem memoryWrittenOnlyByPush : Obligations.MemoryWrittenOnlyByPush := by
  intro s t addr hstep hne
  obtain ⟨-, ⟨i, hf, he⟩ | ⟨c, -, rfl⟩⟩ := step_next hstep
  · by_cases hi : ∃ a, i = .push a
    · obtain ⟨a, rfl⟩ := hi
      refine ⟨opcodeAt_of_fetchInstr hf, ?_⟩
      by_contra haddr
      rw [← toNat_sub_one, ← pushAddr_eq] at haddr
      exact hne (exec_push_byteAt he haddr)
    · exact absurd (by rw [exec_keeps_mem he fun a ha => hi ⟨a, ha⟩]) hne
  · exact absurd rfl hne

/-- Settles O44: a step that gives output executed HLT or PRN, whose operand stands behind the opcode (10_state.md
R22). -/
theorem outputAppendedByPrnAndHlt : Obligations.OutputAppendedByPrnAndHlt := by
  intro s t hstep
  obtain ⟨-, ⟨i, hf, he⟩ | ⟨c, -, rfl⟩⟩ := step_next hstep
  · have hop := opcodeAt_of_fetchInstr hf
    cases i with
    | hlt =>
      cases he
      exact .inr (.inl ⟨hop, rfl⟩)
    | prn a =>
      obtain rfl : s.mem.byteAt (s.pc + 1) = a := byteAt_of_fetchInstr hf 1 (by simp [encode, Instr.operands])
      obtain hout | hout := exec_prn_out he
      · exact .inl hout
      · exact .inr (.inr ⟨hop, hout⟩)
    | ldi | mul | push | pop => exact .inl (exec_keeps_out he nofun nofun)
  · exact .inl rfl

/-- An instruction appends the same events to any output so far, and does the same otherwise (10_state.md R22). -/
theorem exec_with_out {i : Instr} {s t : State} (h : exec i s = .next t) : ∃ es, t.out = s.out ++ es ∧
    ∀ o, exec i { s with out := o } = .next { t with out := o ++ es } := by
  cases i with
  | hlt =>
    cases h
    exact ⟨[.haltNotice], rfl, fun o => rfl⟩
  | prn a =>
    simp only [exec_prn, raise_eq] at h ⊢
    split_ifs at h ⊢ with ha <;> cases h
    · exact ⟨[.print s.x[a.toNat]], rfl, fun o => rfl⟩
    · exact ⟨[], (List.append_nil _).symm, fun o => by rw [List.append_nil]⟩
  | ldi | mul | push | pop =>
    refine ⟨[], ?_, fun o => ?_⟩
    · rw [exec_keeps_out h nofun nofun, List.append_nil]
    · simp only [exec_ldi, exec_mul, exec_push, exec_pop, raise_eq, List.append_nil] at h ⊢
      split_ifs at h ⊢ <;> cases h <;> rfl

/-- Settles O45: neither the fetch nor, by `exec_with_out`, the instruction looks at the output (10_state.md R22). -/
theorem outputDoesNotInfluenceExecution : Obligations.OutputDoesNotInfluenceExecution := by
  intro s t o hstep
  obtain ⟨hrun, ⟨i, hf, he⟩ | ⟨c, hf, rfl⟩⟩ := step_next hstep
  · obtain ⟨es, hes, hexec⟩ := exec_with_out he
    exact ⟨es, hes, (step_of_instr (s := { s with out := o }) hrun hf).trans (hexec o)⟩
  · refine ⟨[], (List.append_nil _).symm, ?_⟩
    rw [step_of_fault (s := { s with out := o }) hrun hf, raise_eq, List.append_nil]

end Sys2Proof.Proofs

/-! The machine's invariant: at reset, at launch, and under every step (spec 10_state.md R18; 40_engine.md R78;
60_exceptions.md R137; log entry 4). -/

namespace Sys2Proof.Proofs

open Sys2Proof.Machine Sys2Proof.Laws

/-- Settles O37: nothing is stored, the pc is 0, and no event has been given (70_reset_and_hazards.md R160). -/
theorem stateInvAtReset : Obligations.StateInvAtReset := by
  intro S
  exact { mem_wf := resetWith_mem_wf S, pc_le := Nat.zero_le _, notice_iff := by simp, cause_ok := by simp }

/-- Settles O38: the load keeps memory canonical and changes nothing else (70_reset_and_hazards.md R162). -/
theorem stateInvAtLaunch : Obligations.StateInvAtLaunch := by
  intro S p t ht
  obtain hp | hp := Nat.lt_or_ge 256 p.length
  · rw [(loadRefusesLongPrograms S p).mpr hp] at ht
    cases ht
  · rw [launch_eq_some S hp] at ht
    cases ht
    exact { mem_wf := storeBytes_wf p (resetWith_mem_wf S) (by omega), pc_le := Nat.zero_le _, notice_iff := by simp,
            cause_ok := by simp }

/-- An executed instruction keeps memory canonical: a PUSH stores at an SP, which is inside memory. -/
theorem exec_mem_wf {i : Instr} {s t : State} (h : exec i s = .next t) (hwf : s.mem.wf) : t.mem.wf := by
  by_cases hi : ∃ a, i = .push a
  · obtain ⟨a, rfl⟩ := hi
    obtain hmem | ⟨v, hmem⟩ := exec_push_mem h
    · rwa [hmem]
    · rw [hmem]
      exact store_wf v hwf (stackAddr_lt _)
  · rwa [exec_keeps_mem h fun a ha => hi ⟨a, ha⟩]

/-- An instruction executed in RUNNING gives the stop notice exactly where it leaves HALTED: HLT does both, and no other
does either (42_hlt.md R100). -/
theorem exec_notice_iff {i : Instr} {s t : State} (h : exec i s = .next t) (hrun : s.run = .running)
    (hout : OutputEvent.haltNotice ∉ s.out) : OutputEvent.haltNotice ∈ t.out ↔ t.run = .halted := by
  by_cases hi : i = .hlt
  · subst hi
    cases h
    simp
  · have hnotice : OutputEvent.haltNotice ∉ t.out := by
      cases i with
      | hlt => exact absurd rfl hi
      | prn a =>
        obtain heq | ⟨ha, heq⟩ := exec_prn_out h
        · rwa [heq]
        · simpa [heq] using hout
      | ldi | mul | push | pop => rwa [exec_keeps_out h nofun nofun]
    have hrun' : t.run ≠ .halted := by
      obtain ⟨hkeep, -⟩ | ⟨c, rfl⟩ := exec_next_of_ne_hlt hi h
      · simp [hkeep, hrun]
      · simp
    exact iff_of_false hnotice hrun'

/-- A fault of the fetch changes the run state only, so the invariant needs the cause alone to fit. -/
theorem stateInv_of_fault {s : State} {c : FaultCause} (hs : StateInv s) (hrun : s.run = .running)
    (hc : CauseOk s c) : StateInv { s with run := .faulted c } where
  mem_wf := hs.mem_wf
  pc_le := hs.pc_le
  notice_iff := iff_of_false (fun hmem => by cases hrun.symm.trans (hs.notice_iff.mp hmem)) nofun
  cause_ok := by
    rintro _ ⟨⟩
    exact hc

/-- A fetch's fault fits the state it was raised in (60_exceptions.md R131, R132). -/
theorem causeOk_of_fetchInstr_error {s : State} {c : FaultCause} (hpc : s.pc ≤ 256) (h : fetchInstr s = .error c) :
    CauseOk s c := by
  obtain rfl | ⟨rfl, hd⟩ := fetchInstr_error hpc h
  · exact rfl
  · exact ⟨rfl, hd⟩

/-- Settles O36: a fault of the fetch or a trap only records a cause that fits, and a completing instruction keeps each
field. -/
theorem stepKeepsStateInv : Obligations.StepKeepsStateInv := by
  intro s t hs hstep
  obtain ⟨hrun, ⟨i, hf, he⟩ | ⟨c, hf, rfl⟩⟩ := step_next hstep
  · obtain ⟨j, hbad, rfl⟩ | ⟨hwf, hpc, -⟩ := exec_next he
    · obtain ⟨hj, -⟩ := badRegister_eq_some hbad
      exact stateInv_of_fault hs hrun hj
    · have hnotice : OutputEvent.haltNotice ∉ s.out := fun hmem => by cases hrun.symm.trans (hs.notice_iff.mp hmem)
      exact
        { mem_wf := exec_mem_wf he hs.mem_wf
          pc_le := hpc ▸ fetchInstr_end_le hf
          notice_iff := exec_notice_iff he hrun hnotice
          cause_ok := fun c hc => absurd hc (safe_of_exec_wf hrun he hwf c) }
  · exact stateInv_of_fault hs hrun (causeOk_of_fetchInstr_error hs.pc_le hf)

end Sys2Proof.Proofs

/-! Noninterference of a register outside the table of reads and writes (spec 10_state.md R15). -/

namespace Sys2Proof.Proofs

open Sys2Proof.Machine Sys2Proof.Laws

/-- Settles O42: each handler reads and writes the registers of its row only, and writes to different registers commute
(10_state.md R15). -/
theorem unusedRegistersDoNotMatter : Obligations.UnusedRegistersDoNotMatter := by
  intro i s t r hr v hu h
  cases i with
  | hlt =>
    cases h
    rfl
  | ldi a b =>
    have hra : r ≠ a.toNat := by simpa [uses] using hu
    simp only [exec_ldi, raise_eq] at h ⊢
    split_ifs at h ⊢ with ha <;> cases h
    · simp only [advancePc, Vector.set_comm _ _ hra]
    · rfl
  | prn a =>
    have hra : r ≠ a.toNat := by simpa [uses] using hu
    simp only [exec_prn, raise_eq] at h ⊢
    split_ifs at h ⊢ with ha <;> cases h
    · simp only [Vector.getElem_set_ne hr ha hra]; rfl
    · rfl
  | mul a b =>
    obtain ⟨hra, hrb⟩ : r ≠ a.toNat ∧ r ≠ b.toNat := by simpa [uses] using hu
    simp only [exec_mul, raise_eq] at h ⊢
    split_ifs at h ⊢ with ha hb <;> cases h
    · simp only [advancePc, Vector.getElem_set_ne hr ha hra, Vector.getElem_set_ne hr hb hrb, Vector.set_comm _ _ hra]
    · rfl
    · rfl
  | push a =>
    obtain ⟨hr7, hra⟩ : r ≠ 7 ∧ r ≠ a.toNat := by simpa [uses] using hu
    simp only [exec_push, raise_eq] at h ⊢
    split_ifs at h ⊢ with ha <;> cases h
    · simp [advancePc, spDecrement, spWrite, pushAddr_eq, Vector.getElem_set_ne, hr7, hra, Vector.set_comm _ _ hr7]
    · rfl
  | pop a =>
    obtain ⟨hr7, hra⟩ : r ≠ 7 ∧ r ≠ a.toNat := by simpa [uses] using hu
    simp only [exec_pop, raise_eq] at h ⊢
    split_ifs at h ⊢ with ha <;> cases h
    · simp [advancePc, spIncrement, spWrite, stackAddr_eq, hr7, Vector.set_comm _ _ hr7, Vector.set_comm _ _ hra]
    · rfl

end Sys2Proof.Proofs

/-! The placed instruction, and a stored byte fetched in the next step (log entry 5; spec 20_memory.md section 4). -/

namespace Sys2Proof.Proofs

open Sys2Proof.Machine Sys2Proof.Laws

/-- A byte in memory as placing leaves it: the `k`-th placed byte at `k` above the pc, the old one elsewhere. -/
theorem byteAt_placeAtPc_of_outside {bytes : List Byte} {s : State} {addr : Nat}
    (h : addr < s.pc ∨ s.pc + bytes.length ≤ addr) : (placeAtPc bytes s).mem.byteAt addr = s.mem.byteAt addr := by
  have hle := List.length_take_le' (256 - s.pc) bytes
  exact (byteAt_storeBytes _ _ _ _).trans (dif_neg (by omega))

/-- Bytes placed inside memory are the first bytes at the pc. -/
theorem codeBytes_placeAtPc {bytes : List Byte} {s : State} (h : s.pc + bytes.length ≤ 256) :
    ∃ rest, codeBytes (placeAtPc bytes s) = bytes ++ rest := by
  have hlen : 256 - s.pc = bytes.length + (256 - s.pc - bytes.length) := by omega
  have hfront : (List.range bytes.length).map (fun k => (placeAtPc bytes s).mem.byteAt (s.pc + k)) = bytes := by
    refine List.ext_getElem (by simp) fun k hk hk' => ?_
    simp only [List.getElem_map, List.getElem_range, placeAtPc, byteAt_storeBytes,
      List.take_of_length_le (show bytes.length ≤ 256 - s.pc by omega)]
    rw [dif_pos (by omega)]
    simp
  rw [codeBytes, show (placeAtPc bytes s).pc = s.pc from rfl, hlen, List.range_add, List.map_append, hfront]
  exact ⟨_, rfl⟩

/-- Settles O35: the table's bytes are the first ones at the pc, so what they decode to is fetched (log entry 5). -/
theorem fetchWordIsRunNext : Obligations.FetchWordIsRunNext := by
  intro s nbits w
  refine ⟨fun i hrun hpc hw => ?_, fun addr haddr => byteAt_placeAtPc_of_outside haddr, rfl, rfl, rfl, rfl⟩
  obtain ⟨rest, hdec⟩ : ∃ rest, decode (tableBytes nbits w) = .ok (i, rest) := by
    unfold decodeTableWord at hw
    split at hw
    next rest hdec => cases hw; exact ⟨rest, hdec⟩
    next => cases hw
  obtain ⟨rest', hbytes⟩ := codeBytes_placeAtPc (bytes := tableBytes nbits w) (s := s) (by simp [tableBytes]; omega)
  have hfront : tableBytes nbits w ++ rest' = encode i ++ (rest ++ rest') := by
    rw [eq_encode_append_of_decode hdec, List.append_assoc]
  exact step_of_instr hrun (fetchInstr_of_codeBytes (hbytes.trans hfront))

/-- Settles O46: the cell the store changed is the one the next opcode is fetched from (20_memory.md section 4, decision
D18). -/
theorem storeIsSeenByTheNextFetch : Obligations.StoreIsSeenByTheNextFetch := by
  intro s t a ha hrun haddr h
  obtain ⟨t', h', -, hmem, hpc, hkeep, -⟩ := exec_push_completes s ha
  obtain rfl : t' = t := by rw [h'] at h; cases h; rfl
  have hop : opcodeAt t' = t'.x[a.toNat] := by
    rw [opcodeAt, hmem, hpc, ← haddr, pushAddr_eq, byteAt_store, if_pos rfl]
  have hlt : s.pc + 2 < 256 := haddr ▸ stackAddr_lt _
  obtain ⟨-, -, hhalt, -⟩ := hltHalts
  refine ⟨hop, fun hone => ⟨_, hhalt t' (hkeep.trans hrun) (by omega) (hop.trans hone), rfl⟩⟩

end Sys2Proof.Proofs

/-! The laws of the stack (spec 44_stack_push_pop.md section 4). -/

namespace Sys2Proof.Proofs

open Sys2Proof.Machine Sys2Proof.Laws

/-- A one-operand instruction whose two bytes stand at the pc is executed. -/
theorem step_of_two_bytes {s : State} {i : Instr} {a : Byte} (hrun : s.run = .running) (hpc : s.pc + 1 ≤ 255)
    (hop : opcodeAt s = opcode i.handler) (ha : s.mem.byteAt (s.pc + 1) = a) (hops : i.operands = [a]) :
    step s = exec i s :=
  step_of_instr hrun (fetchInstr_of_opcodeAt (n := 1) hpc hop (by simp [hops, ← ha, List.range_succ]))

/-- POP of the register just pushed: the byte loaded is what the register holds, so the load changes nothing and the
increment takes SP back (44_stack_push_pop.md section 4, law 1; decision D10). -/
theorem exec_pop_of_exec_push {a : Byte} {s t : State} (ha : a.toNat < 8) (hx : t.x = s.x.set 7 (s.x[7] - 1))
    (hmem : t.mem = s.mem.store (s.x[7] - 1).toNat t.x[a.toNat]) :
    ∃ u, exec (.pop a) t = .next u ∧ u.x = s.x ∧ u.mem = t.mem ∧ u.pc = t.pc + 2 ∧ u.run = t.run ∧ u.out = t.out := by
  obtain ⟨u, hu, hux, hframe⟩ := exec_pop_completes t ha
  have hsp : t.x[7] = s.x[7] - 1 := by simp [hx]
  have hload : t.mem.byteAt t.x[7].toNat = t.x[a.toNat] := by rw [hmem, hsp, byteAt_store, if_pos rfl]
  refine ⟨u, hu, ?_, hframe⟩
  calc u.x = t.x.set 7 (t.x[7] + 1) := by simp only [hux, hload, Vector.set_getElem_self]
    _ = s.x := by simp [hx]

/-- Settles O23: the store misses the POP, so it is fetched as it stood, and `exec_pop_of_exec_push` applies
(44_stack_push_pop.md section 4, law 1). -/
theorem pushThenPopRestoresRegisters : Obligations.PushThenPopRestoresRegisters := by
  intro s n hn hrun hpc hpush hpushReg hpop hpopReg hmissOp hmissReg
  obtain ⟨t, ht, hx, hmem, htpc, htrun, htout⟩ := exec_push_completes s hn
  obtain ⟨u, hu, hux, humem, hupc, hurun, huout⟩ := exec_pop_of_exec_push hn hx hmem
  have hstep : step s = exec (.push n) s := step_of_two_bytes hrun (by omega) hpush hpushReg rfl
  have hop : opcodeAt t = 0x46 := by rw [opcodeAt, htpc, exec_push_byteAt ht hmissOp.symm, hpop]
  have hreg : t.mem.byteAt (t.pc + 1) = n := by rw [htpc, exec_push_byteAt ht hmissReg.symm, hpopReg]
  have hstep' : step t = exec (.pop n) t := step_of_two_bytes (htrun.trans hrun) (by omega) hop hreg rfl
  refine ⟨t, u, hstep.trans ht, hstep'.trans hu, hux, by omega, hurun.trans (htrun.trans hrun), huout.trans htout, ?_,
    fun addr haddr => by rw [humem, exec_push_byteAt ht haddr]⟩
  rw [humem, hmem, pushAddr_eq, byteAt_store, if_pos rfl]
  simp only [hx, set_sp_getElem _ _ hn]

/-- The value in the register an index byte names. -/
def regValue (s : State) (r : Byte) : Byte := s.x[r.toNat]?.getD 0

theorem regValue_eq (s : State) {r : Byte} (h : r.toNat < 8) : regValue s r = s.x[r.toNat] := by simp [regValue, h]

theorem regRead_eq_regValue (s : State) {r : Byte} (h : r.toNat < 8) : regRead r s = .ok (regValue s r) := by
  rw [regRead_ok s h, regValue_eq s h]

/-- The cells from SP upwards, wrapping (decision D9), hold these bytes, the top of the stack first. -/
def Stacked (vals : List Byte) (s : State) : Prop :=
  ∀ k (hk : k < vals.length), s.mem.byteAt (s.x[7] + BitVec.ofNat 8 k).toNat = vals[k]

/-- One cell up and `k` more. -/
theorem add_one_add_ofNat (v : Byte) (k : Nat) : v + (1 : Byte) + BitVec.ofNat 8 k = v + BitVec.ofNat 8 (k + 1) := by
  rw [BitVec.ofNat_add, BitVec.add_comm (BitVec.ofNat 8 k), BitVec.add_assoc]
  rfl

/-- One cell down and `k + 1` up. -/
theorem sub_one_add_ofNat_succ (v : Byte) (k : Nat) :
    v - (1 : Byte) + BitVec.ofNat 8 (k + 1) = v + BitVec.ofNat 8 k := by
  rw [← add_one_add_ofNat, BitVec.sub_add_cancel]

/-- One cell down and `k` more. -/
theorem sub_one_sub_ofNat (v : Byte) (k : Nat) : v - (1 : Byte) - BitVec.ofNat 8 k = v - BitVec.ofNat 8 (k + 1) := by
  bv_omega

/-- PUSH of a register other than SP puts its value on top and changes no such register; up to 256 bytes fit. -/
theorem push_stacked {vals : List Byte} {s : State} {a : Byte} (hs : Stacked vals s) (hlen : vals.length < 256)
    (ha : a.toNat < 7) : ∃ t, exec (.push a) s = .next t ∧ Stacked (regValue s a :: vals) t ∧
      t.x = s.x.set 7 (s.x[7] - 1) := by
  obtain ⟨t, ht, hx, hmem, -⟩ := exec_push_completes s (Nat.lt_succ_of_lt ha)
  have hsp : t.x[7] = s.x[7] - 1 := by simp [hx]
  have hval : t.x[a.toNat] = regValue s a := by
    rw [regValue_eq s (by omega)]
    simp only [hx]
    exact Vector.getElem_set_ne _ _ ha.ne'
  refine ⟨t, ht, fun k hk => ?_, hx⟩
  cases k with
  | zero => simp [hmem, hsp, hval]
  | succ k =>
    have hk' : k < vals.length := by simpa using hk
    have hother : (s.x[7] - 1).toNat ≠ (s.x[7] + BitVec.ofNat 8 k).toNat := by bv_omega
    rw [hsp, sub_one_add_ofNat_succ, hmem, byteAt_store, if_neg hother, List.getElem_cons_succ, hs k hk']

/-- POP into a register other than SP takes the top byte off the stack (44_stack_push_pop.md R117). -/
theorem pop_stacked {v : Byte} {vals : List Byte} {s : State} {a : Byte} (hs : Stacked (v :: vals) s)
    (ha : a.toNat < 7) : ∃ t, exec (.pop a) s = .next t ∧ regRead a t = .ok v ∧ Stacked vals t ∧
      t.x[7] = s.x[7] + 1 := by
  obtain ⟨t, ht, hx, hmem, -⟩ := exec_pop_completes s (Nat.lt_succ_of_lt ha)
  have htop : s.mem.byteAt s.x[7].toNat = v := by simpa using hs 0 (Nat.zero_lt_succ _)
  have hsp : t.x[7] = s.x[7] + 1 := by simp [hx, Vector.getElem_set_ne, ha.ne]
  refine ⟨t, ht, ?_, fun k hk => ?_, hsp⟩
  · rw [regRead_ok t (by omega)]
    simp [hx, htop, Vector.getElem_set_ne, ha.ne']
  · rw [hsp, add_one_add_ofNat, hmem]
    exact hs (k + 1) (by simpa using hk)

/-- Executing a list after one that ends in a next state goes on from there. -/
theorem execAll_append {is js : List Instr} {s t : State} (h : execAll is s = .next t) :
    execAll (is ++ js) s = execAll js t := by
  induction is generalizing s with
  | nil => cases h; rfl
  | cons i is ih =>
    rw [execAll] at h
    rw [List.cons_append, execAll]
    cases hi : exec i s with
    | next u =>
      rw [hi] at h
      exact ih h
    | fault | refused => rw [hi] at h; cases h

theorem execAll_cons {i : Instr} {is : List Instr} {s t : State} (h : exec i s = .next t) :
    execAll (i :: is) s = execAll is t := by rw [execAll, h]

/-- Registers other than SP pushed one after another: their values stand on the stack, the last one on top. -/
theorem pushAll_stacked {sources : List Byte} (vals : List Byte) (s : State) (hs : Stacked vals s)
    (hlen : sources.length + vals.length ≤ 256) (hsources : ∀ r ∈ sources, r.toNat < 7) :
    ∃ t, execAll (sources.map Instr.push) s = .next t ∧ Stacked (sources.reverse.map (regValue s) ++ vals) t ∧
      t.x[7] = s.x[7] - BitVec.ofNat 8 sources.length := by
  induction sources generalizing vals s with
  | nil => exact ⟨s, rfl, hs, by simp⟩
  | cons a sources ih =>
    obtain ⟨ha, hrest⟩ := List.forall_mem_cons.mp hsources
    rw [List.length_cons] at hlen
    obtain ⟨t, ht, hstacked, hx⟩ := push_stacked hs (by omega) ha
    obtain ⟨u, hu, hustacked, husp⟩ := ih (regValue s a :: vals) t hstacked (by rw [List.length_cons]; omega) hrest
    have hkeep : sources.reverse.map (regValue t) = sources.reverse.map (regValue s) :=
      List.map_congr_left fun r hr => by
        have hr7 := hrest r (List.mem_reverse.mp hr)
        simp [regValue, hx, hr7.ne']
    refine ⟨u, (execAll_cons ht).trans hu, ?_, ?_⟩
    · simpa [hkeep] using hustacked
    · rw [husp, show t.x[7] = s.x[7] - 1 by simp [hx], sub_one_sub_ofNat, List.length_cons]

/-- As many registers other than SP popped into as bytes are stacked at most: the bytes below stay on the stack. -/
theorem popAll_stacked {targets : List Byte} (vals : List Byte) (s : State) (hs : Stacked vals s)
    (hlen : targets.length ≤ vals.length) (htargets : ∀ r ∈ targets, r.toNat < 7) :
    ∃ t, execAll (targets.map Instr.pop) s = .next t ∧ Stacked (vals.drop targets.length) t ∧
      t.x[7] = s.x[7] + BitVec.ofNat 8 targets.length := by
  induction targets generalizing vals s with
  | nil => exact ⟨s, rfl, hs, by simp⟩
  | cons a targets ih =>
    obtain ⟨ha, hrest⟩ := List.forall_mem_cons.mp htargets
    cases vals with
    | nil => simp at hlen
    | cons v vals =>
      obtain ⟨t, ht, -, hstacked, hsp⟩ := pop_stacked hs ha
      obtain ⟨u, hu, hustacked, husp⟩ := ih vals t hstacked (by simpa using hlen) hrest
      exact ⟨u, (execAll_cons ht).trans hu, hustacked, by rw [husp, hsp, add_one_add_ofNat, List.length_cons]⟩

/-- SP after `n` pushes and `m` pops, as a number (44_stack_push_pop.md R118, decision D9). -/
theorem toNat_sp_after (v : Byte) {n : Nat} (m : Nat) (hn : n ≤ 256) :
    (v - BitVec.ofNat 8 n + BitVec.ofNat 8 m).toNat = (v.toNat + 256 - n + m) % 256 := by
  simp only [BitVec.toNat_add, BitVec.toNat_sub, BitVec.toNat_ofNat]
  omega

/-- Settles O24: the pushes stack the sources' values with the last on top, the first `k` pops leave the `k`-th there,
and the next pop reads it (44_stack_push_pop.md section 4, law 2). -/
theorem pushedValuesPopInReverse : Obligations.PushedValuesPopInReverse := by
  intro s sources targets hlen hbound hsources htargets k hk hks
  obtain ⟨t, ht, hstacked, htsp⟩ := pushAll_stacked [] s (fun _ hk => absurd hk (Nat.not_lt_zero _)) hbound hsources
  rw [List.append_nil] at hstacked
  have htake : (targets.take k).length = k := List.length_take_of_le hk.le
  obtain ⟨u, hu, hustacked, husp⟩ := popAll_stacked (targets := targets.take k) _ t hstacked
    (by simp only [htake, List.length_map]; omega) fun r hr => htargets r (List.mem_of_mem_take hr)
  rw [htake, List.drop_eq_getElem_cons (by simpa using hks)] at hustacked
  obtain ⟨w, hw, hread, -, hwsp⟩ := pop_stacked hustacked (htargets _ (List.getElem_mem hk))
  have hsource := hsources _ (List.mem_reverse.mp (List.getElem_mem hks))
  refine ⟨w, ?_, ?_, ?_⟩
  · rw [execAll_append ht, List.take_succ_eq_append_getElem hk, List.map_append, execAll_append hu]
    exact execAll_cons hw
  · rw [hread, regRead_eq_regValue s (by omega), List.getElem_map]
  · rw [hwsp, husp, htsp, htake, ← toNat_sp_after _ _ hbound, BitVec.ofNat_add, BitVec.add_assoc]
    rfl

end Sys2Proof.Proofs
